-- ==== Sys2Proof/Word.lean ====
section
/-! DEFINITION. The words of the packet FIFO: bytes, packets, the command word, the operand and result
buses that are bit vectors (00_scope.md R10, R11; 30_encoding.md R71, R73, R74). -/

namespace Sys2Proof

/-- One byte of a packet (00_scope.md R11). -/
abbrev Byte := BitVec 8

/-- `Bytes(P)`: `pkt[0]` first (00_scope.md R11; 20_memory.md R51). The length `P` is a parameter of the block
(`Params.p`), so that a packet is a list and its length a fact about it. -/
abbrev Packet := List Byte

/-- The command word `cmd` (30_encoding.md R71). -/
abbrev CmdWord := BitVec 8

/-- The stall flags of `STALL_IN` and of `EP0_CLR`, `STALL_W` = 2 bits: bit 0 the OUT direction, bit 1 the IN
direction (00_scope.md R7; 41_transport_bridge.md R145). -/
abbrev StallMask := BitVec 2

/-- The status word `STAT_OUT` (10_state.md R30). -/
abbrev StatusWord := BitVec 32

end Sys2Proof
end

