-- ==== Sys2Proof/Syntax.lean ====
section
/-! DEFINITION. The syntax of the block's two ports: the commands of spec/opcode_table.json, the tuple that carries one, the
result codes that answer one, and what the outside world may do. -/

namespace Sys2Proof

/-- The two command ports (30_encoding.md R70). -/
inductive Port where
  /-- The transport side: the interrupt context, one command per USB event. -/
  | t
  /-- The foreground side: the CommandLoop. -/
  | f
  deriving DecidableEq, Repr

/-- The two ring channels, bit 4 (`CH`) of a command word (30_encoding.md R71). -/
inductive Chan where
  | req
  | rsp
  deriving DecidableEq, Repr

/-- The commands: one constructor per row of spec/opcode_table.json (30_encoding.md R76). A command word holds no operand;
indices, packets and masks travel on the operand buses (R71, R73). NOP alone is legal with either value of `CH`. -/
inductive Instr where
  | nop (ch : Chan)
  | pushReq
  | pushRsp
  | peekReq
  | rdslotReq
  | wrslotReq
  | relReq
  | statReq
  | statRsp
  | txdone
  | kick
  | setup
  | wait
  deriving DecidableEq, Repr

/-- One command on a port: `(port, cmd, IDX_IN, PKT_IN, STALL_IN)` (30_encoding.md R70). -/
structure Request where
  port : Port
  cmd : CmdWord
  idxIn : Nat
  pktIn : Packet
  stallIn : StallMask
  deriving DecidableEq, Repr

/-- The result codes on `RES` (30_encoding.md R75). -/
inductive ResCode where
  | ok
  | empty
  | full
  | busy
  | idle
  | errIllegal
  | errPort
  | errProto
  deriving DecidableEq, Repr

/-- What the environment may offer the T agent (60_exceptions.md R195, R203). -/
inductive UsbEvent where
  | receiveComplete (pkt : Packet)
  | transmitComplete
  | setup (stall : StallMask)
  deriving DecidableEq, Repr

/-- One thing that happens next from outside the block: the schedule of the agents of 60_exceptions.md R202. -/
inductive Input where
  /-- A command put on a port as it stands (any port user; R164: other F-side programs are admitted). -/
  | command (r : Request)
  /-- The environment offers a USB event and the T agent issues its command. -/
  | event (e : UsbEvent)
  /-- The F agent moves: one line of the reference CommandLoop (42_command_loop.md R164). -/
  | foreground
  /-- Device initialisation (70_reset_and_hazards.md R220). -/
  | reset
  deriving DecidableEq, Repr

end Sys2Proof
end

