-- ==== Sys2Proof/Decode.lean ====
section
/-! DEFINITION. From command words to commands and back (30_encoding.md R71, R72, R75 to R77, R80). -/

namespace Sys2Proof

/-- Why a word is no command; both give ERR_ILLEGAL (30_encoding.md R77). -/
inductive DecodeError where
  /-- `cmd[7:5] != 0b000`. -/
  | reservedBits
  /-- Not in the legal table of R76. -/
  | unassigned
  deriving DecidableEq, Repr

/-- What the decoder says of a word. -/
inductive Decoded where
  | legal (i : Instr)
  | illegal (why : DecodeError)
  deriving DecidableEq, Repr

/-- The complete legal table of 30_encoding.md R76: 14 words. -/
def legalTable : List (CmdWord × Instr) :=
  [ (0x00#8, .nop .req), (0x10#8, .nop .rsp)
  , (0x01#8, .pushReq), (0x11#8, .pushRsp)
  , (0x02#8, .peekReq), (0x03#8, .rdslotReq), (0x04#8, .wrslotReq), (0x05#8, .relReq)
  , (0x06#8, .statReq), (0x16#8, .statRsp)
  , (0x18#8, .txdone), (0x19#8, .kick), (0x0A#8, .setup), (0x0B#8, .wait) ]

/-- The instruction a table gives a word. -/
def lookupWord (w : CmdWord) : List (CmdWord × Instr) → Option Instr
  | [] => none
  | (v, i) :: rest => if v = w then some i else lookupWord w rest

/-- Decoding, in the order of 30_encoding.md R77: the reserved bits, then the legal table. -/
def decode (w : CmdWord) : Decoded :=
  if w.extractLsb' 5 3 ≠ 0#3 then .illegal .reservedBits
  else
    match lookupWord w legalTable with
    | some i => .legal i
    | none => .illegal .unassigned

/-- `legal_ports(cmd)` (30_encoding.md R76). -/
def legalPort : Instr → Port → Bool
  | .nop _, _ => true
  | .pushReq, .t => true
  | .pushReq, .f => false
  | .pushRsp, .t => false
  | .pushRsp, .f => true
  | .peekReq, .t => false
  | .peekReq, .f => true
  | .rdslotReq, .t => false
  | .rdslotReq, .f => true
  | .wrslotReq, .t => false
  | .wrslotReq, .f => true
  | .relReq, .t => false
  | .relReq, .f => true
  | .statReq, _ => true
  | .statRsp, _ => true
  | .txdone, .t => true
  | .txdone, .f => false
  | .kick, .t => false
  | .kick, .f => true
  | .setup, .t => true
  | .setup, .f => false
  | .wait, .t => false
  | .wait, .f => true

/-! ### The encoder, from the field layout of R71 and the function codes of R72 -/

/-- Bit 4, `CH`: 0 is REQ, 1 is RSP (30_encoding.md R71). -/
def Chan.bit : Chan → BitVec 1
  | .req => 0b0#1
  | .rsp => 0b1#1

/-- The `CH` field of a command (30_encoding.md R76, column CH). -/
def Instr.chan : Instr → Chan
  | .nop ch => ch
  | .pushReq => .req
  | .pushRsp => .rsp
  | .peekReq => .req
  | .rdslotReq => .req
  | .wrslotReq => .req
  | .relReq => .req
  | .statReq => .req
  | .statRsp => .rsp
  | .txdone => .rsp
  | .kick => .rsp
  | .setup => .req
  | .wait => .req

/-- The `FN` field of a command (30_encoding.md R72). -/
def Instr.fn : Instr → BitVec 4
  | .nop _ => 0b0000#4
  | .pushReq => 0b0001#4
  | .pushRsp => 0b0001#4
  | .peekReq => 0b0010#4
  | .rdslotReq => 0b0011#4
  | .wrslotReq => 0b0100#4
  | .relReq => 0b0101#4
  | .statReq => 0b0110#4
  | .statRsp => 0b0110#4
  | .txdone => 0b1000#4
  | .kick => 0b1001#4
  | .setup => 0b1010#4
  | .wait => 0b1011#4

/-- The command word of a command: `{000, CH, FN}` (30_encoding.md R71). -/
def encode (i : Instr) : CmdWord := 0b000#3 ++ (i.chan.bit ++ i.fn)

/-- The value of a result code on `RES` (30_encoding.md R75). -/
def ResCode.code : ResCode → BitVec 4
  | .ok => 0x0#4
  | .empty => 0x1#4
  | .full => 0x2#4
  | .busy => 0x3#4
  | .idle => 0x4#4
  | .errIllegal => 0xC#4
  | .errPort => 0xD#4
  | .errProto => 0xE#4

/-- The three error results (60_exceptions.md R191). -/
def ResCode.isError : ResCode → Bool
  | .ok => false
  | .empty => false
  | .full => false
  | .busy => false
  | .idle => false
  | .errIllegal => true
  | .errPort => true
  | .errProto => true

/-- The instruction this decoder reads from an opcode-table word: one word of 8 bits, all its bits (30_encoding.md R71,
R79), so a number that needs more bits is no command. -/
def decodeTableWord (nbits w : Nat) : Option Instr :=
  if nbits ≤ 8 ∧ w < 2 ^ 8 then
    match decode (BitVec.ofNat 8 w) with
    | .legal i => some i
    | .illegal _ => none
  else none

end Sys2Proof
end

