-- ==== Sys2Proof/Config.lean ====
section
/-! DEFINITION. The implementation parameters of the block (00_scope.md R7, R8, R9): plain data fixed when the block is
built, and the command processor, of which nothing is assumed. -/

namespace Sys2Proof

/-- The build-time parameters that are numbers (00_scope.md R7). A block outside these ranges is not a block of the spec
(92_eei_decisions.md D2, D3), so the ranges are part of the data. -/
structure Params where
  /-- `N`, the number of slots of each channel. -/
  n : Nat
  /-- `P`, the packet size in bytes. -/
  p : Nat
  two_le_n : 2 ≤ n := by decide
  n_le : n ≤ 256 := by decide
  one_le_p : 1 ≤ p := by decide
  deriving DecidableEq, Repr

/-- `STALL_W` (00_scope.md R7, 92_eei_decisions.md D20). -/
def Params.stallW : Nat := 2

/-- `IDX_W = max(1, ceil(log2 N))` (00_scope.md R7): the least width, at least 1, whose values cover `[0, N)`. -/
def Params.idxW (par : Params) : Nat :=
  ((List.range 9).find? fun w => decide (1 ≤ w) && decide (par.n ≤ 2 ^ w)).getD 8

/-- The parameters of `State.reset`. DESIGN CHOICE (notes/assumptions/2.md): the spec leaves `N` open; 4 is the `N` of its
examples and 64 its default `P`. Every statement of the package speaks of any parameters. -/
def Params.example4x64 : Params := { n := 4, p := 64 }

/-- `process` (00_scope.md R9): the opaque command processor of the foreground side, a total deterministic function,
here for each packet size. No body: nothing is known of it (93_implementation_defined.md item 4). -/
opaque Config.process : Nat → Packet → Packet

end Sys2Proof
end

