-- ==== Sys2Proof/WellFormed.lean ====
section
/-! DEFINITION. Which terms of the syntax the hardware can carry: every command, and every request whose operand buses have
their width (30_encoding.md R73; 92_eei_decisions.md D35). -/

namespace Sys2Proof

/-- Every term of `Instr` is a command of the block: the one field, NOP's `CH`, is legal at both values (R76). -/
def Instr.wf : Instr → Bool
  | .nop .req => true
  | .nop .rsp => true
  | .pushReq => true
  | .pushRsp => true
  | .peekReq => true
  | .rdslotReq => true
  | .wrslotReq => true
  | .relReq => true
  | .statReq => true
  | .statRsp => true
  | .txdone => true
  | .kick => true
  | .setup => true
  | .wait => true

/-- A packet of the block is exactly `P` bytes (00_scope.md R11). -/
def Packet.wf (par : Params) (pkt : Packet) : Bool := pkt.length == par.p

/-- An index operand fits `IDX_W` bits; a value `>= N` may be driven (30_encoding.md R73). -/
def idxWf (par : Params) (i : Nat) : Bool := decide (i < 2 ^ par.idxW)

/-- A request the buses can carry (30_encoding.md R73). -/
def Request.wf (par : Params) (r : Request) : Bool := idxWf par r.idxIn && Packet.wf par r.pktIn

/-- A USB event the T agent can pass on (60_exceptions.md R203; 92_eei_decisions.md D35). -/
def UsbEvent.wf (par : Params) : UsbEvent → Bool
  | .receiveComplete pkt => Packet.wf par pkt
  | .transmitComplete => true
  | .setup _ => true

def Input.wf (par : Params) : Input → Bool
  | .command r => r.wf par
  | .event e => e.wf par
  | .foreground => true
  | .reset => true

end Sys2Proof
end

