-- ==== Sys2Proof/Machine/State.lean ====
section
/-! DEFINITION. The state of the block, of the agents that drive it and of its ports (10_state.md R20 to R34;
42_command_loop.md R164), the reasons a step can stop, and the state after reset (10_state.md R33). -/

namespace Sys2Proof.Machine

/-- One channel's slot memory (20_memory.md R50): byte `k` of slot `i` is the cell with key `i * P + k`. Canonical form:
`Memory.wf` of Machine/Ops.lean. -/
abbrev Memory := List Host.Cell

/-- One ring channel (10_state.md R20): its slot memory, `start_index` and `end_index`. -/
structure Channel where
  slots : Memory
  start : Nat
  endIdx : Nat
  deriving DecidableEq, Repr

/-- The operands a command read (40_ring_channel.md R101): an operand it does not read is absent (30_encoding.md R73). -/
structure Operands where
  idx : Option Nat := none
  pkt : Option Packet := none
  stall : Option StallMask := none
  deriving DecidableEq, Repr

/-- The result tuple `(RES, IDX_OUT, PKT_OUT, STAT_OUT)`; a result operand a command does not drive is absent
(30_encoding.md R74). -/
structure Result where
  code : ResCode
  idxOut : Option Nat := none
  pktOut : Option Packet := none
  statOut : Option StatusWord := none
  deriving DecidableEq, Repr

/-- The events of the history (10_state.md R31; 30_encoding.md R78). -/
inductive Event where
  /-- A packet handed to the USB transmitter. -/
  | tx (pkt : Packet)
  /-- A request that the USB controller clear endpoint-0 stall flags. -/
  | ep0Clr (m : StallMask)
  /-- A command performed: port, command word, operands read, result. -/
  | cmd (port : Port) (word : CmdWord) (ops : Operands) (res : Result)
  deriving DecidableEq, Repr

/-- The program labels of the reference CommandLoop (42_command_loop.md R164). -/
inductive Label where
  | l0 | l1 | l2 | l3 | l4 | l5 | l6 | l7 | l8
  deriving DecidableEq, Repr

/-- The F agent's local state: its label and its variables `idx`, `q`, `r` (42_command_loop.md R164; 10_state.md R34). -/
structure Loop where
  label : Label
  idx : Nat
  q : Packet
  r : Packet
  deriving DecidableEq, Repr

/-- The whole machine. The block's own state is `req` to `fAsleep` (10_state.md R20); `history` sits beside it (R31); `par`
are the build-time parameters (00_scope.md R7); `bus` and `result` are the command tuple and the result tuple of the port
that was last served (30_encoding.md R70); `loop` is the F agent (R164); `inbox` is what the outside world does next, oldest
first (60_exceptions.md R202, R203). -/
structure State where
  par : Params
  req : Channel
  rsp : Channel
  busy : Bool
  reqHeld : Bool
  tErr : Bool
  fErr : Bool
  fAsleep : Bool
  history : List Event
  bus : Request
  result : Option Result
  loop : Loop
  inbox : List Input
  deriving DecidableEq, Repr

/-- Why the machine stops with a fault. -/
inductive Fault where
  /-- A slot index `>= N` reached the slot memory: no such slot exists (20_memory.md R50, R52), and the spec gives no stop for
  it, so the stop is DEDUCED (notes/assumptions/18.md). Raised by `slotRead` and
  `slotWrite`; no state with its index registers in `[0, N)` meets it (10_state.md R23). Safe: the machine stops. -/
  | noSuchSlot (ch : Chan) (i : Nat)
  deriving DecidableEq, Repr

/-- Why a step has no meaning. -/
inductive Refusal where
  /-- An instruction without a meaning yet: only `exec`'s arms answer it, and none does now. Safe. -/
  | notModelled (mnemonic : String)
  /-- The F agent's program would read a result operand that its command did not drive, which a port must not do
  (30_encoding.md R74; 93_implementation_defined.md item 16: `refuse`). Raised by `loopMove` only, at labels L1, L2 and
  L3; no run of the reference CommandLoop from reset meets it. Safe: the machine stops. -/
  | absentResult (at_ : Label)
  deriving DecidableEq, Repr

/-- A channel after reset: empty, both indices 0 (10_state.md R33), slot memory with nothing listed
(notes/assumptions/3.md). -/
def Channel.reset : Channel := { slots := [], start := 0, endIdx := 0 }

/-- The F agent after reset: at `L0` (70_reset_and_hazards.md R223). Its variables are undefined there; DESIGN CHOICE
(notes/assumptions/4.md): 0 and empty packets, never read before they are written. -/
def Loop.reset : Loop := { label := .l0, idx := 0, q := [], r := [] }

/-- The command tuple before any command: DESIGN CHOICE (notes/assumptions/5.md), a T-port NOP with zero buses. -/
def Request.atReset : Request := { port := .t, cmd := 0x00#8, idxIn := 0, pktIn := [], stallIn := 0b00#2 }

/-- The machine right after reset, for given parameters (10_state.md R33; 70_reset_and_hazards.md R220 to R223). -/
def State.resetWith (par : Params) : State :=
  { par := par
    req := Channel.reset
    rsp := Channel.reset
    busy := false
    reqHeld := false
    tErr := false
    fErr := false
    fAsleep := false
    history := []
    bus := Request.atReset
    result := none
    loop := Loop.reset
    inbox := [] }

/-- The machine right after reset, with the parameters the spec's examples use (notes/assumptions/2.md). -/
def State.reset : State := State.resetWith Params.example4x64

end Sys2Proof.Machine
end

