-- ==== Sys2Proof/Machine/Ops.lean ====
section
/-! DEFINITION. The shared operations: slot memory, index registers, events, the error results (the block's only
exceptions) and the execution frame of every command (20_memory.md R50 to R56; 40_ring_channel.md R100, R101;
60_exceptions.md R192). -/

namespace Sys2Proof.Machine

/-! ### Slot memory, byte by byte -/

/-- What a byte that nothing has written reads as: slot contents after reset are unspecified and never observable
(20_memory.md R56). DESIGN CHOICE, unsafe (notes/assumptions/3.md): 0. -/
def Memory.blank : Byte := 0x00#8

/-- The byte at an address. -/
def Memory.read : Memory → Nat → Byte
  | [], _ => Memory.blank
  | (b, v) :: rest, a => if b = a then v else Memory.read rest a

/-- Put a byte at an address, keeping the canonical form: writing what an unlisted address reads as lists nothing. -/
def Memory.write : Memory → Nat → Byte → Memory
  | [], a, v => if v = Memory.blank then [] else [(a, v)]
  | (b, w) :: rest, a, v =>
    if a < b then (if v = Memory.blank then (b, w) :: rest else (a, v) :: (b, w) :: rest)
    else if a = b then (if v = Memory.blank then rest else (a, v) :: rest)
    else (b, w) :: Memory.write rest a v

/-- Every listed address is above `lo`, the addresses rise strictly, and no cell holds the blank byte. -/
def Memory.wfAbove : Nat → Memory → Bool
  | _, [] => true
  | lo, (b, v) :: rest => decide (lo ≤ b) && v != Memory.blank && Memory.wfAbove (b + 1) rest

/-- The canonical form, in which equal memories are equal lists. -/
def Memory.wf (m : Memory) : Bool := Memory.wfAbove 0 m

/-- `k` bytes from address `a` on. -/
def Memory.readBytes (m : Memory) : Nat → Nat → List Byte
  | _, 0 => []
  | a, k + 1 => m.read a :: Memory.readBytes m (a + 1) k

/-- Put bytes from address `a` on. -/
def Memory.writeBytes : Memory → Nat → List Byte → Memory
  | m, _, [] => m
  | m, a, b :: rest => Memory.writeBytes (m.write a b) (a + 1) rest

/-! ### Slots -/

/-- A packet bus carries exactly `p` bytes (92_eei_decisions.md D35): a packet of `p` bytes is itself. -/
def Packet.fit (p : Nat) (pkt : Packet) : Packet := (pkt ++ List.replicate p 0x00#8).take p

/-- The key of byte 0 of slot `i` (20_memory.md R50, R51). -/
def slotAddr (par : Params) (i : Nat) : Nat := i * par.p

/-- The `P` bytes slot `i` of a channel holds (20_memory.md R51). -/
def Channel.slotBytes (par : Params) (c : Channel) (i : Nat) : Packet := c.slots.readBytes (slotAddr par i) par.p

/-- The channel with the `P` bytes of slot `i` replaced (20_memory.md R51, R52). -/
def Channel.storeSlot (par : Params) (c : Channel) (i : Nat) (pkt : Packet) : Channel :=
  { c with slots := c.slots.writeBytes (slotAddr par i) (Packet.fit par.p pkt) }

/-- `inc(i)` (40_ring_channel.md R100). -/
def inc (par : Params) (i : Nat) : Nat := (i + 1) % par.n

/-- The channel a command names. -/
def State.chan (s : State) : Chan → Channel
  | .req => s.req
  | .rsp => s.rsp

def State.setChan (s : State) (ch : Chan) (c : Channel) : State :=
  match ch with
  | .req => { s with req := c }
  | .rsp => { s with rsp := c }

/-- `SlotRead(ch, i)` (20_memory.md R52); a slot that does not exist is a fault (DEDUCED, notes/assumptions/18.md). -/
def slotRead (ch : Chan) (i : Nat) (s : State) : Except Fault Packet :=
  if i < s.par.n then .ok ((s.chan ch).slotBytes s.par i) else .error (.noSuchSlot ch i)

/-- `SlotWrite(ch, i, pkt)` (20_memory.md R52); a slot that does not exist is a fault (DEDUCED, notes/assumptions/18.md). -/
def slotWrite (ch : Chan) (i : Nat) (pkt : Packet) (s : State) : Except Fault State :=
  if i < s.par.n then .ok (s.setChan ch ((s.chan ch).storeSlot s.par i pkt)) else .error (.noSuchSlot ch i)

/-- `ch.start <- inc(ch.start)` (10_state.md R21). -/
def advanceStart (ch : Chan) (s : State) : State :=
  s.setChan ch { s.chan ch with start := inc s.par (s.chan ch).start }

/-- `ch.end <- inc(ch.end)` (10_state.md R21). -/
def advanceEnd (ch : Chan) (s : State) : State :=
  s.setChan ch { s.chan ch with endIdx := inc s.par (s.chan ch).endIdx }

/-! ### Events, results and errors -/

/-- `emit` of one event (00_scope.md R12): the history is only appended to (10_state.md R31). -/
def State.emit (s : State) (e : Event) : State := { s with history := s.history ++ [e] }

/-- A result that drives `RES` alone. -/
def Result.bare (c : ResCode) : Result := { code := c }

/-- How the body of a command's rule ends (00_scope.md R12): with a result, with `raise ERR_x`, or at a slot that does not
exist. -/
inductive Effect where
  | done (s : State) (r : Result)
  | raised (e : ResCode)
  | stop (f : Fault)
  deriving DecidableEq, Repr

/-- The port's sticky error bit is set, and nothing else changes (60_exceptions.md R192). -/
def raiseError (s : State) : State :=
  match s.bus.port with
  | .t => { s with tErr := true }
  | .f => { s with fErr := true }

/-- The end of the execution frame (40_ring_channel.md R101): a T-port command wakes the F side, the `CMD` event is
appended, and the result tuple is driven. -/
def conclude (w : CmdWord) (ops : Operands) (r : Result) (s : State) : State :=
  { s with
    fAsleep := (match s.bus.port with | .t => false | .f => s.fAsleep)
    history := s.history ++ [.cmd s.bus.port w ops r]
    result := some r }

/-- TAKING AN ERROR (60_exceptions.md R191, R192), the one shared operation: the sticky bit, the frame's end with the error
code and no result operand. There is no trap entry and no return from one (R198, R199). -/
def takeError (w : CmdWord) (ops : Operands) (e : ResCode) (s : State) : State :=
  conclude w ops (Result.bare e) (raiseError s)

/-- A port accepts a command unless it is the F port of a suspended F side (40_ring_channel.md R101; 60_exceptions.md
R202). -/
def accepts (s : State) : Bool :=
  match s.bus.port with
  | .t => true
  | .f => !s.fAsleep

end Sys2Proof.Machine
end

