-- ==== Sys2Proof/Machine/Flags.lean ====
section
/-! DEFINITION. The flags, all computed from the indices at each read, and the status word (10_state.md R24, R30). -/

namespace Sys2Proof.Machine

/-- `CAP = N - 1` (00_scope.md R7; 90_conflicts.md C1). -/
def cap (par : Params) : Nat := par.n - 1

/-- `EMPTY(ch)` (10_state.md R24). -/
def Channel.isEmpty (c : Channel) : Bool := c.start == c.endIdx

/-- `FULL(ch)` (10_state.md R24). -/
def Channel.isFull (par : Params) (c : Channel) : Bool := inc par c.endIdx == c.start

/-- `FILL(ch) = (end - start) mod N`, the mathematical remainder (10_state.md R24; 00_scope.md R10). -/
def Channel.fill (par : Params) (c : Channel) : Nat := (((c.endIdx : Int) - (c.start : Int)) % (par.n : Int)).toNat

/-- The HELD bit of a channel's status: RSP has none (10_state.md R26, R30). -/
def heldBit (s : State) : Chan → Bool
  | .req => s.reqHeld
  | .rsp => false

/-- `STATUS(ch)` (10_state.md R30): FILL, END, START, two reserved zero bits, F_ERR, T_ERR, HELD, BUSY, FULL, EMPTY from
bit 31 down to bit 0. -/
def status (s : State) (ch : Chan) : StatusWord :=
  let c := s.chan ch
  BitVec.ofNat 8 (c.fill s.par) ++ (BitVec.ofNat 8 c.endIdx ++ (BitVec.ofNat 8 c.start ++
    (0b00#2 ++ (BitVec.ofBool s.fErr ++ (BitVec.ofBool s.tErr ++ (BitVec.ofBool (heldBit s ch) ++
      (BitVec.ofBool s.busy ++ (BitVec.ofBool (c.isFull s.par) ++ BitVec.ofBool c.isEmpty))))))))

/-- A bit of a status word, as a port reads it (`STAT_OUT[k]`, 30_encoding.md R82). -/
def statusBit (w : StatusWord) (k : Nat) : Bool := w.getLsbD k

/-- The filled slots' packets, oldest first: slots `(start + k) mod N` for `k < FILL` (20_memory.md R55). -/
def Channel.contents (par : Params) (c : Channel) : List Packet :=
  (List.range (c.fill par)).map fun k => c.slotBytes par ((c.start + k) % par.n)

end Sys2Proof.Machine
end

