-- ==== Sys2Proof/Machine/Operands.lean ====
section
/-! DEFINITION. The operand buses: what each command reads of them, the width they have, and the frame that performs a
command on the port it arrived on (30_encoding.md R70, R73; 40_ring_channel.md R101). -/

namespace Sys2Proof.Machine

/-- The operands each command reads; it ignores the other buses (30_encoding.md R73). -/
def operandsRead (i : Instr) (b : Request) : Operands :=
  match i with
  | .nop _ => {}
  | .pushReq => { pkt := some b.pktIn }
  | .pushRsp => { pkt := some b.pktIn }
  | .peekReq => {}
  | .rdslotReq => { idx := some b.idxIn }
  | .wrslotReq => { idx := some b.idxIn, pkt := some b.pktIn }
  | .relReq => { idx := some b.idxIn }
  | .statReq => {}
  | .statRsp => {}
  | .txdone => {}
  | .kick => {}
  | .setup => { stall := some b.stallIn }
  | .wait => {}

/-- The buses as they reach the block: `IDX_IN` has `IDX_W` bits and `PKT_IN` has `P` bytes, so a request with
`Request.wf` is itself (30_encoding.md R73; notes/assumptions/8.md). -/
def Request.latch (par : Params) (r : Request) : Request :=
  { r with idxIn := r.idxIn % 2 ^ par.idxW, pktIn := Packet.fit par.p r.pktIn }

/-- The frame of a legal command (40_ring_channel.md R101; decoding order 30_encoding.md R77): on a port that accepts it,
first the port check, then the body, then the end of the frame. A command the F port does not accept waits: nothing is
performed and nothing changes (60_exceptions.md R202; notes/assumptions/9.md). -/
def perform (i : Instr) (body : State → Effect) (s : State) : Host.Outcome State Fault Refusal :=
  if accepts s then
    if legalPort i s.bus.port then
      match body s with
      | .done s' r => .next (conclude (encode i) (operandsRead i s.bus) r s')
      | .raised e => .next (takeError (encode i) (operandsRead i s.bus) e s)
      | .stop f => .fault f
    else .next (takeError (encode i) (operandsRead i s.bus) .errPort s)
  else .next s

/-- The frame of a word that is no command (30_encoding.md R77, R80): ERR_ILLEGAL; no operand is listed for it, so none is
read (notes/assumptions/7.md). -/
def performIllegal (s : State) : Host.Outcome State Fault Refusal :=
  if accepts s then .next (takeError s.bus.cmd {} .errIllegal s) else .next s

end Sys2Proof.Machine
end

