-- ==== Sys2Proof/Machine/Transport.lean ====
section
/-! DEFINITION. The transport-side commands, the transmit-state arbiter's hand-off, and the command the T agent issues for
each USB event (41_transport_bridge.md R140 to R146). -/

namespace Sys2Proof.Machine

/-- The arbiter's hand-off, shared by KICK and TXDONE: the head of RSP goes to the transmitter and its slot is released, in
one step (R143, R144; 42_command_loop.md R160). -/
def sendHead (s : State) : Except Fault State :=
  match slotRead .rsp s.rsp.start s with
  | .ok pkt => .ok (advanceStart .rsp (s.emit (.tx pkt)))
  | .error f => .error f

/-- TXDONE's body (R143). -/
def txdoneBody (s : State) : Effect :=
  if s.busy = false then .raised .errProto
  else if s.rsp.isEmpty then .done { s with busy := false } (.bare .idle)
  else
    match sendHead s with
    | .ok s' => .done s' (.bare .ok)
    | .error f => .stop f

/-- SETUP's body (R145). -/
def setupBody (s : State) : Effect :=
  if s.bus.stallIn ≠ 0b00#2 then .done (s.emit (.ep0Clr s.bus.stallIn)) (.bare .ok) else .done s (.bare .ok)

/-- TXDONE (R143). -/
def execTxdone (s : State) : Host.Outcome State Fault Refusal := perform .txdone txdoneBody s

/-- SETUP (R145). -/
def execSetup (s : State) : Host.Outcome State Fault Refusal := perform .setup setupBody s

/-- The T agent: each USB event is one T-port command (R140, R141; 60_exceptions.md R195). The buses the command does not
read carry zeros. -/
def eventRequest (e : UsbEvent) : Request :=
  match e with
  | .receiveComplete pkt => { port := .t, cmd := encode .pushReq, idxIn := 0, pktIn := pkt, stallIn := 0b00#2 }
  | .transmitComplete => { port := .t, cmd := encode .txdone, idxIn := 0, pktIn := [], stallIn := 0b00#2 }
  | .setup m => { port := .t, cmd := encode .setup, idxIn := 0, pktIn := [], stallIn := m }

end Sys2Proof.Machine
end

