-- ==== Sys2Proof/Machine/Foreground.lean ====
section
/-! DEFINITION. The foreground-side commands (42_command_loop.md R160 to R162). -/

namespace Sys2Proof.Machine

/-- KICK's body (R160): one atomic test, hand-off and `busy <- 1`. -/
def kickBody (s : State) : Effect :=
  if s.busy then .done s (.bare .busy)
  else if s.rsp.isEmpty then .done s (.bare .empty)
  else
    match sendHead s with
    | .ok s' => .done { s' with busy := true } (.bare .ok)
    | .error f => .stop f

/-- WAIT's body (R161): one atomic test and suspension. -/
def waitBody (s : State) : Effect :=
  if s.req.isEmpty || s.rsp.isFull s.par then .done { s with fAsleep := true } (.bare .ok) else .done s (.bare .ok)

/-- KICK (R160). -/
def execKick (s : State) : Host.Outcome State Fault Refusal := perform .kick kickBody s

/-- WAIT (R161). -/
def execWait (s : State) : Host.Outcome State Fault Refusal := perform .wait waitBody s

end Sys2Proof.Machine
end

