-- ==== Sys2Proof/Machine/Ring.lean ====
section
/-! DEFINITION. The ring channel commands (40_ring_channel.md R102 to R110). -/

namespace Sys2Proof.Machine

/-- NOP's body (R102). -/
def nopBody (s : State) : Effect := .done s (.bare .ok)

/-- The body of PUSH on a channel (R103, R104): overrun drops the packet; else the packet goes to slot `end`, which
advances. -/
def pushBody (ch : Chan) (s : State) : Effect :=
  if (s.chan ch).isFull s.par then .done s (.bare .full)
  else
    match slotWrite ch (s.chan ch).endIdx s.bus.pktIn s with
    | .ok s' => .done (advanceEnd ch s') (.bare .ok)
    | .error f => .stop f

/-- PEEK REQ's body (R105). -/
def peekBody (s : State) : Effect :=
  if s.req.isEmpty then .done s (.bare .empty)
  else .done { s with reqHeld := true } { code := .ok, idxOut := some s.req.start }

/-- The two protocol checks of RDSLOT, WRSLOT and REL, in their order (R106 to R108; 60_exceptions.md R194). -/
def ifHeld (s : State) (body : Effect) : Effect :=
  if s.reqHeld = false then .raised .errProto
  else if s.bus.idxIn ≠ s.req.start then .raised .errProto
  else body

/-- RDSLOT REQ's body after its checks (R106). -/
def rdslotBody (s : State) : Effect :=
  match slotRead .req s.req.start s with
  | .ok pkt => .done s { code := .ok, pktOut := some pkt }
  | .error f => .stop f

/-- WRSLOT REQ's body after its checks (R107). -/
def wrslotBody (s : State) : Effect :=
  match slotWrite .req s.req.start s.bus.pktIn s with
  | .ok s' => .done s' (.bare .ok)
  | .error f => .stop f

/-- REL REQ's body after its checks (R108). -/
def relBody (s : State) : Effect := .done { advanceStart .req s with reqHeld := false } (.bare .ok)

/-- STAT's body (R109, R110). -/
def statBody (ch : Chan) (s : State) : Effect := .done s { code := .ok, statOut := some (status s ch) }

/-! ### The meanings -/

/-- NOP (R102): `CH` does not matter beyond the word recorded. -/
def execNop (ch : Chan) (s : State) : Host.Outcome State Fault Refusal := perform (.nop ch) nopBody s

/-- PUSH REQ (R103). -/
def execPushReq (s : State) : Host.Outcome State Fault Refusal := perform .pushReq (pushBody .req) s

/-- PUSH RSP (R104). -/
def execPushRsp (s : State) : Host.Outcome State Fault Refusal := perform .pushRsp (pushBody .rsp) s

/-- PEEK REQ (R105). -/
def execPeekReq (s : State) : Host.Outcome State Fault Refusal := perform .peekReq peekBody s

/-- RDSLOT REQ (R106). -/
def execRdslotReq (s : State) : Host.Outcome State Fault Refusal :=
  perform .rdslotReq (fun s => ifHeld s (rdslotBody s)) s

/-- WRSLOT REQ (R107). -/
def execWrslotReq (s : State) : Host.Outcome State Fault Refusal :=
  perform .wrslotReq (fun s => ifHeld s (wrslotBody s)) s

/-- REL REQ (R108). -/
def execRelReq (s : State) : Host.Outcome State Fault Refusal :=
  perform .relReq (fun s => ifHeld s (relBody s)) s

/-- STAT REQ (R109). -/
def execStatReq (s : State) : Host.Outcome State Fault Refusal := perform .statReq (statBody .req) s

/-- STAT RSP (R110). -/
def execStatRsp (s : State) : Host.Outcome State Fault Refusal := perform .statRsp (statBody .rsp) s

end Sys2Proof.Machine
end

