-- ==== Sys2Proof/Machine/Dispatch.lean ====
section
/-! DEFINITION. Every command's meaning, one arm per row of spec/opcode_table.json. -/

namespace Sys2Proof.Machine

/-- Perform a command: its port and its operands are those of `s.bus` (40_ring_channel.md R101). -/
def exec (i : Instr) (s : State) : Host.Outcome State Fault Refusal :=
  match i with
  | .nop ch => Sys2Proof.Machine.execNop ch s
  | .pushReq => Sys2Proof.Machine.execPushReq s
  | .pushRsp => Sys2Proof.Machine.execPushRsp s
  | .peekReq => Sys2Proof.Machine.execPeekReq s
  | .rdslotReq => Sys2Proof.Machine.execRdslotReq s
  | .wrslotReq => Sys2Proof.Machine.execWrslotReq s
  | .relReq => Sys2Proof.Machine.execRelReq s
  | .statReq => Sys2Proof.Machine.execStatReq s
  | .statRsp => Sys2Proof.Machine.execStatRsp s
  | .txdone => Sys2Proof.Machine.execTxdone s
  | .kick => Sys2Proof.Machine.execKick s
  | .setup => Sys2Proof.Machine.execSetup s
  | .wait => Sys2Proof.Machine.execWait s

end Sys2Proof.Machine
end

