-- ==== Sys2Proof/Machine/Serve.lean ====
section
/-! DEFINITION. Serving one command on a port, the reference CommandLoop of the F agent, and which agent moves next
(30_encoding.md R70, R77; 42_command_loop.md R163, R164; 60_exceptions.md R202; 70_reset_and_hazards.md R220). -/

namespace Sys2Proof.Machine

/-- Decode and perform the command on the buses (30_encoding.md R77). -/
def serveBus (s : State) : Host.Outcome State Fault Refusal :=
  match decode s.bus.cmd with
  | .legal i => exec i s
  | .illegal _ => performIllegal s

/-- Put a request on its port's buses and perform it, as one step (20_memory.md R58). -/
def serve (r : Request) (s : State) : Host.Outcome State Fault Refusal :=
  serveBus { s with bus := Request.latch s.par r }

/-! ### The F agent -/

/-- The F agent issues a command; the buses it does not name carry zeros, which the command ignores (30_encoding.md
R73). -/
def issueF (i : Instr) (idx : Nat) (pkt : Packet) (s : State) : Host.Outcome State Fault Refusal :=
  serve { port := .f, cmd := encode i, idxIn := idx, pktIn := pkt, stallIn := 0b00#2 } s

/-- The F agent moves on to a label. -/
def State.goto (s : State) (l : Label) : State := { s with loop := { s.loop with label := l } }

/-- What the F agent does once its command has been performed. -/
def afterCommand (o : Host.Outcome State Fault Refusal) (k : State → Host.Outcome State Fault Refusal) :
    Host.Outcome State Fault Refusal :=
  match o with
  | .next s => k s
  | .fault f => .fault f
  | .refused r => .refused r

/-- L1, after PEEK: EMPTY goes back to L0, OK keeps the index. -/
def afterPeek (s : State) : Host.Outcome State Fault Refusal :=
  match s.result with
  | some { code := .empty, .. } => .next (s.goto .l0)
  | some { idxOut := some i, .. } => .next { s with loop := { s.loop with label := .l2, idx := i } }
  | _ => .refused (.absentResult .l1)

/-- L2, after STAT RSP: a full RSP goes back to L0. -/
def afterStat (s : State) : Host.Outcome State Fault Refusal :=
  match s.result with
  | some { statOut := some w, .. } => .next (s.goto (if statusBit w 1 then .l0 else .l3))
  | _ => .refused (.absentResult .l2)

/-- L3, after RDSLOT: `q := PKT_OUT`. -/
def afterRdslot (s : State) : Host.Outcome State Fault Refusal :=
  match s.result with
  | some { pktOut := some pkt, .. } => .next { s with loop := { s.loop with label := .l4, q := pkt } }
  | _ => .refused (.absentResult .l3)

/-- One line of the reference CommandLoop (42_command_loop.md R164), with `process` the command processor. L4 and L8 are
steps of the F agent alone (R163): no command, no change of the block. -/
def loopMove (process : Packet → Packet) (s : State) : Host.Outcome State Fault Refusal :=
  match s.loop.label with
  | .l0 => afterCommand (issueF .wait 0 [] s) fun s => .next (s.goto .l1)
  | .l1 => afterCommand (issueF .peekReq 0 [] s) afterPeek
  | .l2 => afterCommand (issueF .statRsp 0 [] s) afterStat
  | .l3 => afterCommand (issueF .rdslotReq s.loop.idx [] s) afterRdslot
  | .l4 => .next { s with loop := { s.loop with label := .l5, r := Packet.fit s.par.p (process s.loop.q) } }
  | .l5 => afterCommand (issueF .relReq s.loop.idx [] s) fun s => .next (s.goto .l6)
  | .l6 => afterCommand (issueF .pushRsp 0 s.loop.r s) fun s => .next (s.goto .l7)
  | .l7 => afterCommand (issueF .kick 0 [] s) fun s => .next (s.goto .l8)
  | .l8 => .next (s.goto .l0)

/-! ### Whose move it is -/

/-- An input is enabled unless it is a move of the suspended F side (60_exceptions.md R202), or a transmit-complete with no
transmission outstanding: the environment has that move only while `busy = 1` (R203, 92_eei_decisions.md D31). -/
def enabledInput (asleep busy : Bool) : Input → Bool
  | .command r =>
    match r.port with
    | .t => true
    | .f => !asleep
  | .event e =>
    match e with
    | .receiveComplete _ => true
    | .transmitComplete => busy
    | .setup _ => true
  | .foreground => !asleep
  | .reset => true

/-- The first enabled input and what stays in the inbox. The others wait in their order; reset abandons those that wait
before it (70_reset_and_hazards.md R220). -/
def takeEnabled (asleep busy : Bool) : List Input → Option (Input × List Input)
  | [] => none
  | i :: rest =>
    if enabledInput asleep busy i then some (i, rest)
    else
      match takeEnabled asleep busy rest with
      | none => none
      | some (.reset, left) => some (.reset, left)
      | some (j, left) => some (j, i :: left)

/-- The next move: the first enabled input; with none, the F agent moves on its own as long as it is awake (60_exceptions.md
R202, R204); with neither, the machine is quiescent (R208). -/
def nextMove (s : State) : Option (Input × List Input) :=
  match takeEnabled s.fAsleep s.busy s.inbox with
  | some x => some x
  | none => if s.fAsleep then none else some (.foreground, s.inbox)

/-- One move, with the command processor as an argument. -/
def moveWith (process : Packet → Packet) (i : Input) (s : State) : Host.Outcome State Fault Refusal :=
  match i with
  | .command r => serve r s
  | .event e => serve (eventRequest e) s
  | .foreground => loopMove process s
  | .reset => .next { State.resetWith s.par with inbox := s.inbox }

/-- One step with the command processor as an argument: the next move, or none in a quiescent state, which stays as it is
(60_exceptions.md R208; notes/assumptions/10.md). -/
def stepWith (process : Packet → Packet) (s : State) : Host.Outcome State Fault Refusal :=
  match nextMove s with
  | some (i, rest) => moveWith process i { s with inbox := rest }
  | none => .next s

/-! ### Placing a command word -/

/-- A port that may issue the word: the T port when it may, or when the word is no command, else the F port. -/
def portFor (w : CmdWord) : Port :=
  match decode w with
  | .legal i => if legalPort i .t then .t else .f
  | .illegal _ => .t

/-- A word offered next, with zero operand buses. -/
def wordRequest (par : Params) (w : CmdWord) : Request :=
  { port := portFor w, cmd := w, idxIn := 0, pktIn := List.replicate par.p 0x00#8, stallIn := 0b00#2 }

/-- The state in which the word is the next move: first in the inbox, and the F side awake if it goes to the F port. -/
def placeWord (w : CmdWord) (s : State) : State :=
  { s with
    inbox := .command (wordRequest s.par w) :: s.inbox
    fAsleep := (match portFor w with | .t => s.fAsleep | .f => false) }

end Sys2Proof.Machine
end

