-- ==== Sys2Proof/Machine/Step.lean ====
section
/-! DEFINITION. The machine's step and the placing of an instruction word (notes/assumptions/6.md, 10.md). -/

namespace Sys2Proof.Machine

/-- One step of the machine: one move of one agent (60_exceptions.md R202), with the configured command processor. -/
def step (s : State) : Host.Outcome State Fault Refusal := stepWith (Config.process s.par.p) s

/-- The block fetches nothing (10_state.md R29): a command arrives on a port. This places the word of an opcode-table row as
the next command, on a port that may issue it. -/
def State.withFetchWord (s : State) (_nbits w : Nat) : State := placeWord (BitVec.ofNat 8 w) s

end Sys2Proof.Machine
end

