-- ==== Sys2Proof/Machine/Assembler.lean ====
section
/-! DEFINITION. The listing syntax and the pseudo-instructions (30_encoding.md R81, R82): a listing line as data, the request
it stands for, and the lines the pseudo-instructions expand to. -/

namespace Sys2Proof.Machine

/-- The mnemonics of a listing, without their channel (R81). -/
inductive Mnemonic where
  | nop | push | peek | rdslot | wrslot | rel | stat | txdone | kick | setup | wait
  deriving DecidableEq, Repr

/-- The packets a listing names (R81); a packet name is the packet it stands for. -/
inductive PacketText where
  | named (pkt : Packet)
  | zeros
  | fill (b : Byte)
  | seq (b : Byte)
  deriving DecidableEq, Repr

/-- The operands of a listing line (R81). -/
inductive Operand where
  | index (i : Nat)
  | packet (x : PacketText)
  | mask (m : StallMask)
  deriving DecidableEq, Repr

/-- A listing line: `port ":" mnemonic [channel] ["," operand]` (R81); WRSLOT alone has two operands. -/
structure Line where
  port : Port
  mnemonic : Mnemonic
  chan : Option Chan := none
  operands : List Operand := []
  deriving DecidableEq, Repr

/-- The bytes a packet text stands for: byte `k` of `seq(b)` is `(b + k) mod 256` (R81). -/
def PacketText.bytes (p : Nat) : PacketText → Packet
  | .named pkt => pkt
  | .zeros => List.replicate p 0x00#8
  | .fill b => List.replicate p b
  | .seq b => (List.range p).map fun k => b + BitVec.ofNat 8 k

/-- The command a mnemonic and a channel spell: the channel is written for PUSH, PEEK, RDSLOT, WRSLOT, REL and STAT and
omitted for the others (R81). -/
def spelled : Mnemonic → Option Chan → Option Instr
  | .nop, none => some (.nop .req)
  | .push, some .req => some .pushReq
  | .push, some .rsp => some .pushRsp
  | .peek, some .req => some .peekReq
  | .rdslot, some .req => some .rdslotReq
  | .wrslot, some .req => some .wrslotReq
  | .rel, some .req => some .relReq
  | .stat, some .req => some .statReq
  | .stat, some .rsp => some .statRsp
  | .txdone, none => some .txdone
  | .kick, none => some .kick
  | .setup, none => some .setup
  | .wait, none => some .wait
  | _, _ => none

/-- The request a line stands for: the command's word, and its operands on their buses; the buses it does not name carry
zeros. A line whose operands are not those its command reads (30_encoding.md R73) is no line. -/
def assemble (par : Params) (l : Line) : Option Request :=
  match spelled l.mnemonic l.chan with
  | none => none
  | some i =>
    let make (idx : Nat) (pkt : Packet) (m : StallMask) : Option Request := some ⟨l.port, encode i, idx, pkt, m⟩
    let zero := List.replicate par.p 0x00#8
    match i, l.operands with
    | .nop _, [] => make 0 zero 0b00#2
    | .pushReq, [.packet x] => make 0 (x.bytes par.p) 0b00#2
    | .pushRsp, [.packet x] => make 0 (x.bytes par.p) 0b00#2
    | .peekReq, [] => make 0 zero 0b00#2
    | .rdslotReq, [.index k] => make k zero 0b00#2
    | .wrslotReq, [.index k, .packet x] => make k (x.bytes par.p) 0b00#2
    | .relReq, [.index k] => make k zero 0b00#2
    | .statReq, [] => make 0 zero 0b00#2
    | .statRsp, [] => make 0 zero 0b00#2
    | .txdone, [] => make 0 zero 0b00#2
    | .kick, [] => make 0 zero 0b00#2
    | .setup, [.mask m] => make 0 zero m
    | .wait, [] => make 0 zero 0b00#2
    | _, _ => none

/-! ### Pseudo-instructions (R82) -/

/-- `T: RXDONE pkt`. -/
def lineRxdone (x : PacketText) : Line := ⟨.t, .push, some .req, [.packet x]⟩
/-- `F: ENQ pkt`. -/
def lineEnq (x : PacketText) : Line := ⟨.f, .push, some .rsp, [.packet x]⟩
/-- `F: CONSUME`. -/
def lineConsume : Line := ⟨.f, .peek, some .req, []⟩
/-- `F: RELEASE i`. -/
def lineRelease (i : Nat) : Line := ⟨.f, .rel, some .req, [.index i]⟩
/-- The STAT that `ISEMPTY ch` and `ISFULL ch` expand to, on either port. -/
def lineStat (port : Port) (ch : Chan) : Line := ⟨port, .stat, some ch, []⟩

/-- The result of `ISEMPTY ch`: bit 0 of the status word its STAT returned. -/
def isEmptyResult (r : Result) : Option Bool := r.statOut.map fun w => statusBit w 0
/-- The result of `ISFULL ch`: bit 1 of the status word its STAT returned. -/
def isFullResult (r : Result) : Option Bool := r.statOut.map fun w => statusBit w 1

end Sys2Proof.Machine
end

