-- ==== Sys2Proof/Safety.lean ====
section
/-! DEFINITION. What counts as a safe state and a safe run, in the terms the claims use: the structural invariant, the faulted,
quiescent and idle states, what the history says, the reference CommandLoop's invariants, and when two states differ only
in slots nobody can read (10_state.md R31, R32; 20_memory.md R55, R56, R62; 42_command_loop.md R165 to R167;
60_exceptions.md R193, R203, R208). -/

namespace Sys2Proof.Machine

/-! ### States -/

/-- A channel whose index registers are in `[0, N)` (10_state.md R23), and whose slot memory is canonical and inside its
`N * P` bytes (20_memory.md R50). -/
abbrev Channel.Good (par : Params) (c : Channel) : Prop :=
  c.start < par.n ∧ c.endIdx < par.n ∧ c.slots.wf = true ∧ ∀ cell ∈ c.slots, cell.1 < par.n * par.p

/-- The structural invariant: both channels are good, and a held slot is a filled one (10_state.md R23, R32(b)). -/
abbrev State.Good (s : State) : Prop :=
  s.req.Good s.par ∧ s.rsp.Good s.par ∧ (s.reqHeld = true → s.req.isEmpty = false)

/-- A sticky error bit is set: never a good final state (60_exceptions.md R193). -/
abbrev State.Faulted (s : State) : Prop := s.tErr = true ∨ s.fErr = true

/-- No agent has a move (60_exceptions.md R208). -/
abbrev State.Quiescent (s : State) : Prop := nextMove s = none

/-- An idle state (60_exceptions.md R208). -/
abbrev State.Idle (s : State) : Prop :=
  s.Quiescent ∧ ¬ s.Faulted ∧ s.req.isEmpty = true ∧ s.rsp.isEmpty = true ∧ s.busy = false

/-! ### What the history says (10_state.md R31) -/

/-- The packets the USB transmitter received, in order. -/
def txPackets (h : List Event) : List Packet :=
  h.filterMap fun e => match e with
    | .tx pkt => some pkt
    | _ => none

/-- The packets that the commands `(port, word)` with result OK took from `PKT_IN`, in order. -/
def storedBy (port : Port) (word : CmdWord) (h : List Event) : List Packet :=
  h.filterMap fun e => match e with
    | .cmd p w ops r => if p = port ∧ w = word ∧ r.code = .ok then ops.pkt else none
    | _ => none

/-- The packets PUSH REQ stored, in order. -/
def storedReq (h : List Event) : List Packet := storedBy .t 0x01#8 h

/-- The packets PUSH RSP stored, in order. -/
def storedRsp (h : List Event) : List Packet := storedBy .f 0x11#8 h

/-- How many commands `(port, word)` had a result code that `ok` accepts. -/
def countCmd (port : Port) (word : CmdWord) (ok : ResCode → Bool) (h : List Event) : Nat :=
  h.countP fun e => match e with
    | .cmd p w _ r => p == port && w == word && ok r.code
    | _ => false

/-- How many requests REL released. -/
def releasedReq (h : List Event) : Nat := countCmd .f 0x05#8 (· == .ok) h

/-- How many TXDONE commands returned OK or IDLE (10_state.md R32(c)). -/
def txdonesAnswered (h : List Event) : Nat := countCmd .t 0x18#8 (fun c => c == .ok || c == .idle) h

/-- Some command of a port returned an error (10_state.md R32(d)). -/
def errorOn (port : Port) (h : List Event) : Bool :=
  h.any fun e => match e with
    | .cmd p _ _ r => p == port && r.code.isError
    | _ => false

/-! ### The environment and the reference CommandLoop -/

/-- An input of a run of the reference CommandLoop: the F port is driven by the loop alone (42_command_loop.md R164;
70_reset_and_hazards.md R234). T-port commands, USB events and resets may come in any order. -/
def referenceInput : Input → Bool
  | .command r => r.port == .t
  | .event _ => true
  | .foreground => true
  | .reset => true

/-- An input of a run within the environment's contract (60_exceptions.md R203): USB events only, no other T-port command and
no command on the F port; the F agent and reset as ever. -/
def contractInput : Input → Bool
  | .command _ => false
  | .event _ => true
  | .foreground => true
  | .reset => true

/-- What the CommandLoop knows at each label of the block's state and of its own variables (42_command_loop.md R164,
R165), with `process` the command processor. -/
def State.AtLabel (process : Packet → Packet) (s : State) : Prop :=
  match s.loop.label with
  | .l0 => True
  | .l1 => True
  | .l2 => s.reqHeld = true ∧ s.loop.idx = s.req.start
  | .l3 => s.reqHeld = true ∧ s.loop.idx = s.req.start ∧ s.rsp.isFull s.par = false
  | .l4 => s.reqHeld = true ∧ s.loop.idx = s.req.start ∧ s.rsp.isFull s.par = false ∧
      s.loop.q = s.req.slotBytes s.par s.req.start
  | .l5 => s.reqHeld = true ∧ s.loop.idx = s.req.start ∧ s.rsp.isFull s.par = false ∧
      s.loop.r = Packet.fit s.par.p (process (s.req.slotBytes s.par s.req.start))
  | .l6 => s.rsp.isFull s.par = false ∧ s.loop.r.length = s.par.p
  | .l7 => True
  | .l8 => True

/-- The invariant of a run of the reference CommandLoop: a good state, only the loop on the F port, what the loop knows at
its label, and Idle implies an empty RSP except between the PUSH RSP at L6 and its KICK (42_command_loop.md R165, R166). -/
def State.LoopInv (s : State) : Prop :=
  s.Good ∧ (∀ i ∈ s.inbox, referenceInput i = true) ∧ s.AtLabel (Config.process s.par.p) ∧
    (s.loop.label ≠ .l7 → s.busy = false → s.rsp.isEmpty = true)

/-- The responses computed but not yet stored: the one in `r` at L6. -/
def State.pendingResponse (s : State) : List Packet :=
  match s.loop.label with
  | .l6 => [s.loop.r]
  | _ => []

/-- The response to a request: `process`, on the `P` bytes of a packet (00_scope.md R9). -/
def respond (par : Params) (q : Packet) : Packet := Packet.fit par.p (Config.process par.p q)

/-- Requests and responses are paired one to one, in order (42_command_loop.md R167; 20_memory.md R62): REQ holds the stored
requests that are not yet released, the responses stored or pending are those to the released requests, and the
transmitter has received the stored responses less those RSP still holds. -/
def State.PairInv (s : State) : Prop :=
  s.LoopInv ∧
  releasedReq s.history ≤ (storedReq s.history).length ∧
  s.req.contents s.par = (storedReq s.history).drop (releasedReq s.history) ∧
  storedRsp s.history ++ s.pendingResponse = ((storedReq s.history).take (releasedReq s.history)).map (respond s.par) ∧
  storedRsp s.history = txPackets s.history ++ s.rsp.contents s.par

/-! ### Outcomes without the buses -/

/-- An outcome that forgets what the operand buses carry (30_encoding.md R73). -/
def dropBus : Host.Outcome State Fault Refusal → Host.Outcome State Fault Refusal
  | .next s => .next { s with bus := Request.atReset }
  | .fault f => .fault f
  | .refused r => .refused r

/-! ### The channels as queues (20_memory.md R55, R62) -/

/-- REQ as a queue: a stored push joins at the end, a release takes the head, a write in place replaces it. -/
def reqQueueAfter (i : Instr) (ok : Bool) (pkt : Packet) (q : List Packet) : List Packet :=
  match ok, i with
  | true, .pushReq => q ++ [pkt]
  | true, .relReq => q.tail
  | true, .wrslotReq => pkt :: q.tail
  | _, _ => q

/-- RSP as a queue: a stored push joins at the end, a transmission takes the head. -/
def rspQueueAfter (i : Instr) (ok : Bool) (pkt : Packet) (q : List Packet) : List Packet :=
  match ok, i with
  | true, .pushRsp => q ++ [pkt]
  | true, .kick => q.tail
  | true, .txdone => q.tail
  | _, _ => q

/-! ### States that differ only in what nobody can read -/

/-- A state without its slot memories. -/
def State.withoutSlots (s : State) : State :=
  { s with req := { s.req with slots := [] }, rsp := { s.rsp with slots := [] } }

/-- Two states that agree on everything but the bytes of free slots (20_memory.md R55, R56). -/
def AgreeOnFilled (s t : State) : Prop :=
  s.withoutSlots = t.withoutSlots ∧ s.req.contents s.par = t.req.contents t.par ∧
    s.rsp.contents s.par = t.rsp.contents t.par

end Sys2Proof.Machine
end

