-- ==== Sys2Proof/Certificates/Slice0/Obligations.lean ====
section
/-! DEFINITION. The statements for the provers: encoding, the step, every command's rule with its frame, the rules of the
whole machine, its invariants, and the reference CommandLoop. A premise `s.bus.port = .f → s.fAsleep = false` says that the
port accepts the command (60_exceptions.md R202). -/

open Sys2Proof Sys2Proof.Machine

/-! ### Encoding -/

/-- 30_encoding.md R71, R76: some words written out bit by bit, and what they decode to. -/
def Obligations.DecodeReadsWrittenOutWords : Prop :=
  decode 0b00000000#8 = .legal (.nop .req) ∧ decode 0b00010000#8 = .legal (.nop .rsp) ∧
  decode 0b00000001#8 = .legal .pushReq ∧ decode 0b00010001#8 = .legal .pushRsp ∧
  decode 0b00000101#8 = .legal .relReq ∧ decode 0b00010110#8 = .legal .statRsp ∧
  decode 0b00011000#8 = .legal .txdone ∧ decode 0b00011001#8 = .legal .kick ∧
  decode 0b00001010#8 = .legal .setup ∧ decode 0b00001011#8 = .legal .wait ∧
  decode 0b00100000#8 = .illegal .reservedBits ∧ decode 0b11100101#8 = .illegal .reservedBits ∧
  decode 0b00010010#8 = .illegal .unassigned ∧ decode 0b00000111#8 = .illegal .unassigned

/-- 30_encoding.md R76: the legal words are exactly the 14 of the table, each with its command, and each command's legal
ports are the table's. -/
def Obligations.LegalEncodingsAreExactlyTheTable : Prop :=
  (∀ (w : CmdWord) (i : Instr), decode w = .legal i ↔ (w, i) ∈
    ([ (0x00#8, .nop .req), (0x10#8, .nop .rsp), (0x01#8, .pushReq), (0x11#8, .pushRsp), (0x02#8, .peekReq)
     , (0x03#8, .rdslotReq), (0x04#8, .wrslotReq), (0x05#8, .relReq), (0x06#8, .statReq), (0x16#8, .statRsp)
     , (0x18#8, .txdone), (0x19#8, .kick), (0x0A#8, .setup), (0x0B#8, .wait) ] : List (CmdWord × Instr))) ∧
  (∀ (i : Instr) (p : Port), legalPort i p = true ↔
    match i with
    | .nop _ | .statReq | .statRsp => True
    | .pushReq | .txdone | .setup => p = .t
    | .pushRsp | .peekReq | .rdslotReq | .wrslotReq | .relReq | .kick | .wait => p = .f)

/-- Encoding and decoding agree both ways (30_encoding.md R71, R72, R76): every command is read back from its word, and a
legal word is the word of its command. -/
def Obligations.EncodingAndDecodingAgree : Prop :=
  (∀ i : Instr, decode (encode i) = .legal i) ∧ (∀ (w : CmdWord) (i : Instr), decode w = .legal i → encode i = w)

/-- 30_encoding.md R74, R75: the values of the result codes, which commands return each of them, and which commands drive a
result operand. -/
def Obligations.ResultsAreThoseOfTheCommand : Prop :=
  (ResCode.code .ok = 0x0#4 ∧ ResCode.code .empty = 0x1#4 ∧ ResCode.code .full = 0x2#4 ∧ ResCode.code .busy = 0x3#4 ∧
    ResCode.code .idle = 0x4#4 ∧ ResCode.code .errIllegal = 0xC#4 ∧ ResCode.code .errPort = 0xD#4 ∧
    ResCode.code .errProto = 0xE#4) ∧
  (∀ (i : Instr) (s t : State), (s.bus.port = .f → s.fAsleep = false) → exec i s = .next t → ∃ r, t.result = some r ∧
    r.code ≠ .errIllegal ∧
    (r.code = .empty → i = .peekReq ∨ i = .kick) ∧
    (r.code = .full → i = .pushReq ∨ i = .pushRsp) ∧
    (r.code = .busy → i = .kick) ∧
    (r.code = .idle → i = .txdone) ∧
    (r.code = .errProto → i = .rdslotReq ∨ i = .wrslotReq ∨ i = .relReq ∨ i = .txdone) ∧
    (r.idxOut ≠ none ↔ i = .peekReq ∧ r.code = .ok) ∧
    (r.pktOut ≠ none ↔ i = .rdslotReq ∧ r.code = .ok) ∧
    (r.statOut ≠ none ↔ (i = .statReq ∨ i = .statRsp) ∧ r.code = .ok))

/-- 30_encoding.md R73: a command ignores the buses it does not read. Changing such a bus changes nothing of what the
command does, beyond the bus itself (`dropBus` forgets the buses). -/
def Obligations.UnreadBusesAreIgnored : Prop :=
  ∀ (i : Instr) (s : State),
    (i ≠ .rdslotReq → i ≠ .wrslotReq → i ≠ .relReq →
      ∀ k, dropBus (exec i { s with bus := { s.bus with idxIn := k } }) = dropBus (exec i s)) ∧
    (i ≠ .pushReq → i ≠ .pushRsp → i ≠ .wrslotReq →
      ∀ pkt, dropBus (exec i { s with bus := { s.bus with pktIn := pkt } }) = dropBus (exec i s)) ∧
    (i ≠ .setup → ∀ m, dropBus (exec i { s with bus := { s.bus with stallIn := m } }) = dropBus (exec i s))

/-! ### The step -/

/-- A step performs the decoded command (30_encoding.md R70, R77; 20_memory.md R58): when the next input is a request that
its port accepts and its word is legal, the step is that command on that request's buses. -/
def Obligations.StepPerformsTheDecodedCommand : Prop :=
  ∀ (s : State) (r : Request) (rest : List Input) (i : Instr),
    s.inbox = .command r :: rest → (r.port = .f → s.fAsleep = false) → r.wf s.par = true → decode r.cmd = .legal i →
    step s = exec i { s with inbox := rest, bus := r }

/-- 30_encoding.md R80, 60_exceptions.md R192: a word outside the legal table returns ERR_ILLEGAL, sets the issuing port's
sticky bit, and changes nothing else of the block (a T-port one wakes the F side, R162). -/
def Obligations.IllegalWordReturnsErrIllegal : Prop :=
  ∀ (s : State) (r : Request) (rest : List Input) (why : DecodeError),
    s.inbox = .command r :: rest → (r.port = .f → s.fAsleep = false) → r.wf s.par = true → decode r.cmd = .illegal why →
    ∃ ops, step s = .next { s with
      inbox := rest, bus := r
      tErr := (s.tErr || r.port == .t), fErr := (s.fErr || r.port == .f), fAsleep := false
      history := s.history ++ [.cmd r.port r.cmd ops { code := .errIllegal }]
      result := some { code := .errIllegal } }

/-- 60_exceptions.md R191, R192: a legal command on a port that may not issue it returns ERR_PORT, sets that port's sticky
bit, and changes nothing else of the block. Which operands its event records is the model's reading of the spec
(notes/assumptions/7.md). -/
def Obligations.WrongPortReturnsErrPort : Prop :=
  ∀ (i : Instr) (s : State), legalPort i s.bus.port = false → (s.bus.port = .f → s.fAsleep = false) →
    exec i s = .next { s with
      tErr := (s.tErr || s.bus.port == .t), fErr := (s.fErr || s.bus.port == .f), fAsleep := false
      history := s.history ++ [.cmd s.bus.port (encode i) (operandsRead i s.bus) { code := .errPort }]
      result := some { code := .errPort } }

/-- 41_transport_bridge.md R140, 60_exceptions.md R195, R203: each USB event is one T-port command with the event's operand; a
transmit-complete is one while a transmission is outstanding. -/
def Obligations.UsbEventsAreTransportCommands : Prop :=
  ∀ (s : State) (rest : List Input),
    (∀ pkt, pkt.length = s.par.p → s.inbox = .event (.receiveComplete pkt) :: rest →
      ∃ b, b.port = .t ∧ b.pktIn = pkt ∧ step s = exec .pushReq { s with inbox := rest, bus := b }) ∧
    (s.busy = true → s.inbox = .event .transmitComplete :: rest →
      ∃ b, b.port = .t ∧ step s = exec .txdone { s with inbox := rest, bus := b }) ∧
    (∀ m, s.inbox = .event (.setup m) :: rest →
      ∃ b, b.port = .t ∧ b.stallIn = m ∧ step s = exec .setup { s with inbox := rest, bus := b })

/-- A placed opcode-table word is the next command, on a port that may issue it; nothing else changes but that the F side is
awake when the word goes to the F port (the model's way to load a word, notes/assumptions/6.md). -/
def Obligations.PlacedWordRunsNext : Prop :=
  ∀ (s : State) (w : Nat) (i : Instr), decodeTableWord 8 w = some i →
    ∃ b, legalPort i b.port = true ∧ b.cmd = BitVec.ofNat 8 w ∧
      step (s.withFetchWord 8 w) =
        exec i { s with bus := b, fAsleep := (match b.port with | .t => s.fAsleep | .f => false) }

/-- While the F side is suspended its port accepts no command and its inputs wait (60_exceptions.md R202; 93, item 20;
notes/assumptions/9.md and 10.md): a command on it performs nothing, a machine with only F-side inputs stays as it is, and a
T-port command behind waiting F-side inputs is performed while they stay in their order. -/
def Obligations.SuspendedSideWaits : Prop :=
  (∀ (i : Instr) (s : State), s.bus.port = .f → s.fAsleep = true → exec i s = .next s) ∧
  (∀ s : State, s.fAsleep = true → (∀ x ∈ s.inbox, x = .foreground ∨ ∃ r, x = .command r ∧ r.port = .f) →
    step s = .next s) ∧
  (∀ (s : State) (waiting rest : List Input) (r : Request) (i : Instr), s.fAsleep = true →
    (∀ x ∈ waiting, x = .foreground ∨ ∃ r, x = .command r ∧ r.port = .f) →
    s.inbox = waiting ++ .command r :: rest → r.port = .t → r.wf s.par = true → decode r.cmd = .legal i →
    step s = exec i { s with inbox := waiting ++ rest, bus := r })

/-! ### Reset -/

/-- 10_state.md R33, R29, 70_reset_and_hazards.md R223: every state element's value after reset, and the F agent at L0, for
every parameters. -/
def Obligations.ResetGivesEveryElementItsValue : Prop :=
  ∀ par : Params,
    (State.resetWith par).req.start = 0 ∧ (State.resetWith par).req.endIdx = 0 ∧
    (State.resetWith par).rsp.start = 0 ∧ (State.resetWith par).rsp.endIdx = 0 ∧
    (State.resetWith par).busy = false ∧ (State.resetWith par).reqHeld = false ∧
    (State.resetWith par).tErr = false ∧ (State.resetWith par).fErr = false ∧
    (State.resetWith par).fAsleep = false ∧ (State.resetWith par).history = [] ∧
    (State.resetWith par).loop.label = .l0

/-- 70_reset_and_hazards.md R221 (derived there from R33): after reset both status words are 1 and the first PEEK returns
EMPTY. -/
def Obligations.ResetLeavesBothChannelsEmpty : Prop :=
  ∀ par : Params,
    status (State.resetWith par) .req = 0x00000001#32 ∧ status (State.resetWith par) .rsp = 0x00000001#32 ∧
    ∀ b : Request, b.port = .f →
      ∃ t, exec .peekReq { State.resetWith par with bus := b } = .next t ∧ t.result = some { code := .empty }

/-- 70_reset_and_hazards.md R220: reset is one step, to the reset values and a new, empty history; only the parameters and
what the outside world does next stay. The spec leaves open, and the model chooses, the slot memories (notes/assumptions/3.md,
14.md), the F agent's variables (4.md), the buses and the result (5.md), and that the inbox stays (10.md). -/
def Obligations.ResetIsOneStep : Prop :=
  ∀ (s : State) (rest : List Input), s.inbox = .reset :: rest →
    step s = .next { State.resetWith s.par with inbox := rest }

/-! ### The ring channel commands -/

/-- 40_ring_channel.md R102, with its encoding, ports and whole effect. -/
def Obligations.NopOnlyAnswersOk : Prop :=
  encode (.nop .req) = 0x00#8 ∧ encode (.nop .rsp) = 0x10#8 ∧
  (∀ ch p, legalPort (.nop ch) p = true) ∧
  ∀ (ch : Chan) (s : State), (s.bus.port = .f → s.fAsleep = false) →
    exec (.nop ch) s = .next { s with
      fAsleep := false
      history := s.history ++ [.cmd s.bus.port (encode (.nop ch)) {} { code := .ok }]
      result := some { code := .ok } }

/-- 40_ring_channel.md R103, with its encoding, ports and whole effect: a full REQ drops the packet; else the packet's bytes
go to slot `end`, every other byte stays, and `end` advances. -/
def Obligations.PushReqStoresOrDrops : Prop :=
  encode .pushReq = 0x01#8 ∧ legalPort .pushReq .t = true ∧ legalPort .pushReq .f = false ∧
  (∀ s : State, s.bus.port = .t → (s.req.endIdx + 1) % s.par.n = s.req.start →
    exec .pushReq s = .next { s with
      fAsleep := false
      history := s.history ++ [.cmd .t 0x01#8 { pkt := some s.bus.pktIn } { code := .full }]
      result := some { code := .full } }) ∧
  (∀ s : State, s.bus.port = .t → s.bus.pktIn.length = s.par.p → s.req.slots.wf = true → s.req.endIdx < s.par.n →
    (s.req.endIdx + 1) % s.par.n ≠ s.req.start →
    ∃ m : Memory,
      exec .pushReq s = .next { s with
        req := { slots := m, start := s.req.start, endIdx := (s.req.endIdx + 1) % s.par.n }
        fAsleep := false
        history := s.history ++ [.cmd .t 0x01#8 { pkt := some s.bus.pktIn } { code := .ok }]
        result := some { code := .ok } } ∧
      m.wf = true ∧
      (∀ k, k < s.par.p → s.bus.pktIn[k]? = some (m.read (slotAddr s.par s.req.endIdx + k))) ∧
      (∀ a, (a < slotAddr s.par s.req.endIdx ∨ slotAddr s.par s.req.endIdx + s.par.p ≤ a) →
        m.read a = s.req.slots.read a))

/-- 40_ring_channel.md R104, with its encoding, ports and whole effect: as PUSH REQ on RSP, from the F port; no event but its
own and no change of `busy`. -/
def Obligations.PushRspStoresOrDrops : Prop :=
  encode .pushRsp = 0x11#8 ∧ legalPort .pushRsp .f = true ∧ legalPort .pushRsp .t = false ∧
  (∀ s : State, s.bus.port = .f → s.fAsleep = false → (s.rsp.endIdx + 1) % s.par.n = s.rsp.start →
    exec .pushRsp s = .next { s with
      history := s.history ++ [.cmd .f 0x11#8 { pkt := some s.bus.pktIn } { code := .full }]
      result := some { code := .full } }) ∧
  (∀ s : State, s.bus.port = .f → s.fAsleep = false → s.bus.pktIn.length = s.par.p → s.rsp.slots.wf = true →
    s.rsp.endIdx < s.par.n → (s.rsp.endIdx + 1) % s.par.n ≠ s.rsp.start →
    ∃ m : Memory,
      exec .pushRsp s = .next { s with
        rsp := { slots := m, start := s.rsp.start, endIdx := (s.rsp.endIdx + 1) % s.par.n }
        history := s.history ++ [.cmd .f 0x11#8 { pkt := some s.bus.pktIn } { code := .ok }]
        result := some { code := .ok } } ∧
      m.wf = true ∧
      (∀ k, k < s.par.p → s.bus.pktIn[k]? = some (m.read (slotAddr s.par s.rsp.endIdx + k))) ∧
      (∀ a, (a < slotAddr s.par s.rsp.endIdx ∨ slotAddr s.par s.rsp.endIdx + s.par.p ≤ a) →
        m.read a = s.rsp.slots.read a))

/-- 40_ring_channel.md R105, with its encoding, ports and whole effect. -/
def Obligations.PeekReqHoldsTheHead : Prop :=
  encode .peekReq = 0x02#8 ∧ legalPort .peekReq .f = true ∧ legalPort .peekReq .t = false ∧
  (∀ s : State, s.bus.port = .f → s.fAsleep = false → s.req.start = s.req.endIdx →
    exec .peekReq s = .next { s with
      history := s.history ++ [.cmd .f 0x02#8 {} { code := .empty }]
      result := some { code := .empty } }) ∧
  (∀ s : State, s.bus.port = .f → s.fAsleep = false → s.req.start ≠ s.req.endIdx →
    exec .peekReq s = .next { s with
      reqHeld := true
      history := s.history ++ [.cmd .f 0x02#8 {} { code := .ok, idxOut := some s.req.start }]
      result := some { code := .ok, idxOut := some s.req.start } })

/-- 40_ring_channel.md R106, with its encoding, ports and whole effect: without a held slot, or with another index, ERR_PROTO
and `f_err`; else the `P` bytes of the head slot and nothing changed. That the event of the error records the index is the
model's reading of the spec (notes/assumptions/7.md). -/
def Obligations.RdslotReqReadsTheHeldSlot : Prop :=
  encode .rdslotReq = 0x03#8 ∧ legalPort .rdslotReq .f = true ∧ legalPort .rdslotReq .t = false ∧
  (∀ s : State, s.bus.port = .f → s.fAsleep = false → (s.reqHeld = false ∨ s.bus.idxIn ≠ s.req.start) →
    exec .rdslotReq s = .next { s with
      fErr := true
      history := s.history ++ [.cmd .f 0x03#8 { idx := some s.bus.idxIn } { code := .errProto }]
      result := some { code := .errProto } }) ∧
  (∀ s : State, s.bus.port = .f → s.fAsleep = false → s.reqHeld = true → s.bus.idxIn = s.req.start →
    s.req.start < s.par.n →
    ∃ pkt : Packet,
      exec .rdslotReq s = .next { s with
        history := s.history ++ [.cmd .f 0x03#8 { idx := some s.bus.idxIn } { code := .ok, pktOut := some pkt }]
        result := some { code := .ok, pktOut := some pkt } } ∧
      pkt.length = s.par.p ∧
      ∀ k, k < s.par.p → pkt[k]? = some (s.req.slots.read (slotAddr s.par s.req.start + k)))

/-- 40_ring_channel.md R107, with its encoding, ports and whole effect: the checks of RDSLOT; else the packet's bytes replace
those of the head slot, every other byte stays, and the indices do not change. That the event of the error records the index
and the packet is the model's reading of the spec (notes/assumptions/7.md). -/
def Obligations.WrslotReqRewritesTheHeldSlot : Prop :=
  encode .wrslotReq = 0x04#8 ∧ legalPort .wrslotReq .f = true ∧ legalPort .wrslotReq .t = false ∧
  (∀ s : State, s.bus.port = .f → s.fAsleep = false → (s.reqHeld = false ∨ s.bus.idxIn ≠ s.req.start) →
    exec .wrslotReq s = .next { s with
      fErr := true
      history := s.history ++
        [.cmd .f 0x04#8 { idx := some s.bus.idxIn, pkt := some s.bus.pktIn } { code := .errProto }]
      result := some { code := .errProto } }) ∧
  (∀ s : State, s.bus.port = .f → s.fAsleep = false → s.reqHeld = true → s.bus.idxIn = s.req.start →
    s.bus.pktIn.length = s.par.p → s.req.slots.wf = true → s.req.start < s.par.n →
    ∃ m : Memory,
      exec .wrslotReq s = .next { s with
        req := { slots := m, start := s.req.start, endIdx := s.req.endIdx }
        history := s.history ++ [.cmd .f 0x04#8 { idx := some s.bus.idxIn, pkt := some s.bus.pktIn } { code := .ok }]
        result := some { code := .ok } } ∧
      m.wf = true ∧
      (∀ k, k < s.par.p → s.bus.pktIn[k]? = some (m.read (slotAddr s.par s.req.start + k))) ∧
      (∀ a, (a < slotAddr s.par s.req.start ∨ slotAddr s.par s.req.start + s.par.p ≤ a) →
        m.read a = s.req.slots.read a))

/-- 40_ring_channel.md R108, with its encoding, ports and whole effect: the checks of RDSLOT; else `start` advances, the slot
is no longer held, and its bytes stay. That the event of the error records the index is the model's reading of the spec
(notes/assumptions/7.md). -/
def Obligations.RelReqReleasesTheHeldSlot : Prop :=
  encode .relReq = 0x05#8 ∧ legalPort .relReq .f = true ∧ legalPort .relReq .t = false ∧
  (∀ s : State, s.bus.port = .f → s.fAsleep = false → (s.reqHeld = false ∨ s.bus.idxIn ≠ s.req.start) →
    exec .relReq s = .next { s with
      fErr := true
      history := s.history ++ [.cmd .f 0x05#8 { idx := some s.bus.idxIn } { code := .errProto }]
      result := some { code := .errProto } }) ∧
  (∀ s : State, s.bus.port = .f → s.fAsleep = false → s.reqHeld = true → s.bus.idxIn = s.req.start →
    exec .relReq s = .next { s with
      req := { slots := s.req.slots, start := (s.req.start + 1) % s.par.n, endIdx := s.req.endIdx }
      reqHeld := false
      history := s.history ++ [.cmd .f 0x05#8 { idx := some s.bus.idxIn } { code := .ok }]
      result := some { code := .ok } })

/-- 40_ring_channel.md R109 with the layout of 10_state.md R30: STAT REQ changes nothing and returns REQ's status word,
field by field. -/
def Obligations.StatReqReturnsTheStatusWord : Prop :=
  encode .statReq = 0x06#8 ∧ (∀ p, legalPort .statReq p = true) ∧
  ∀ s : State, (s.bus.port = .f → s.fAsleep = false) → s.req.start < s.par.n → s.req.endIdx < s.par.n →
    ∃ w : StatusWord,
      exec .statReq s = .next { s with
        fAsleep := false
        history := s.history ++ [.cmd s.bus.port 0x06#8 {} { code := .ok, statOut := some w }]
        result := some { code := .ok, statOut := some w } } ∧
      w.getLsbD 0 = decide (s.req.start = s.req.endIdx) ∧
      w.getLsbD 1 = decide ((s.req.endIdx + 1) % s.par.n = s.req.start) ∧
      w.getLsbD 2 = s.busy ∧ w.getLsbD 3 = s.reqHeld ∧ w.getLsbD 4 = s.tErr ∧ w.getLsbD 5 = s.fErr ∧
      w.extractLsb' 6 2 = 0#2 ∧ (w.extractLsb' 8 8).toNat = s.req.start ∧ (w.extractLsb' 16 8).toNat = s.req.endIdx ∧
      (w.extractLsb' 24 8).toNat =
        (if s.req.start ≤ s.req.endIdx then s.req.endIdx - s.req.start else s.par.n + s.req.endIdx - s.req.start)

/-- 40_ring_channel.md R110 with the layout of 10_state.md R30: STAT RSP changes nothing and returns RSP's status word,
field by field; its HELD bit is 0. -/
def Obligations.StatRspReturnsTheStatusWord : Prop :=
  encode .statRsp = 0x16#8 ∧ (∀ p, legalPort .statRsp p = true) ∧
  ∀ s : State, (s.bus.port = .f → s.fAsleep = false) → s.rsp.start < s.par.n → s.rsp.endIdx < s.par.n →
    ∃ w : StatusWord,
      exec .statRsp s = .next { s with
        fAsleep := false
        history := s.history ++ [.cmd s.bus.port 0x16#8 {} { code := .ok, statOut := some w }]
        result := some { code := .ok, statOut := some w } } ∧
      w.getLsbD 0 = decide (s.rsp.start = s.rsp.endIdx) ∧
      w.getLsbD 1 = decide ((s.rsp.endIdx + 1) % s.par.n = s.rsp.start) ∧
      w.getLsbD 2 = s.busy ∧ w.getLsbD 3 = false ∧ w.getLsbD 4 = s.tErr ∧ w.getLsbD 5 = s.fErr ∧
      w.extractLsb' 6 2 = 0#2 ∧ (w.extractLsb' 8 8).toNat = s.rsp.start ∧ (w.extractLsb' 16 8).toNat = s.rsp.endIdx ∧
      (w.extractLsb' 24 8).toNat =
        (if s.rsp.start ≤ s.rsp.endIdx then s.rsp.endIdx - s.rsp.start else s.par.n + s.rsp.endIdx - s.rsp.start)

/-! ### The arbiter's commands and the other two -/

/-- 41_transport_bridge.md R143, with its encoding, ports and whole effect: ERR_PROTO with nothing outstanding; Idle on an
empty RSP; else the head's bytes are handed over and released. -/
def Obligations.TxdoneSendsOrGoesIdle : Prop :=
  encode .txdone = 0x18#8 ∧ legalPort .txdone .t = true ∧ legalPort .txdone .f = false ∧
  (∀ s : State, s.bus.port = .t → s.busy = false →
    exec .txdone s = .next { s with
      tErr := true, fAsleep := false
      history := s.history ++ [.cmd .t 0x18#8 {} { code := .errProto }]
      result := some { code := .errProto } }) ∧
  (∀ s : State, s.bus.port = .t → s.busy = true → s.rsp.start = s.rsp.endIdx →
    exec .txdone s = .next { s with
      busy := false, fAsleep := false
      history := s.history ++ [.cmd .t 0x18#8 {} { code := .idle }]
      result := some { code := .idle } }) ∧
  (∀ s : State, s.bus.port = .t → s.busy = true → s.rsp.start ≠ s.rsp.endIdx → s.rsp.start < s.par.n →
    ∃ pkt : Packet,
      exec .txdone s = .next { s with
        rsp := { slots := s.rsp.slots, start := (s.rsp.start + 1) % s.par.n, endIdx := s.rsp.endIdx }
        fAsleep := false
        history := s.history ++ [.tx pkt, .cmd .t 0x18#8 {} { code := .ok }]
        result := some { code := .ok } } ∧
      pkt.length = s.par.p ∧
      ∀ k, k < s.par.p → pkt[k]? = some (s.rsp.slots.read (slotAddr s.par s.rsp.start + k)))

/-- 42_command_loop.md R160, with its encoding, ports and whole effect: BUSY while Sending, EMPTY on an empty RSP, else one
step that hands over the head, releases it and sets `busy`. -/
def Obligations.KickSendsWhenIdle : Prop :=
  encode .kick = 0x19#8 ∧ legalPort .kick .f = true ∧ legalPort .kick .t = false ∧
  (∀ s : State, s.bus.port = .f → s.fAsleep = false → s.busy = true →
    exec .kick s = .next { s with
      history := s.history ++ [.cmd .f 0x19#8 {} { code := .busy }]
      result := some { code := .busy } }) ∧
  (∀ s : State, s.bus.port = .f → s.fAsleep = false → s.busy = false → s.rsp.start = s.rsp.endIdx →
    exec .kick s = .next { s with
      history := s.history ++ [.cmd .f 0x19#8 {} { code := .empty }]
      result := some { code := .empty } }) ∧
  (∀ s : State, s.bus.port = .f → s.fAsleep = false → s.busy = false → s.rsp.start ≠ s.rsp.endIdx →
    s.rsp.start < s.par.n →
    ∃ pkt : Packet,
      exec .kick s = .next { s with
        rsp := { slots := s.rsp.slots, start := (s.rsp.start + 1) % s.par.n, endIdx := s.rsp.endIdx }
        busy := true
        history := s.history ++ [.tx pkt, .cmd .f 0x19#8 {} { code := .ok }]
        result := some { code := .ok } } ∧
      pkt.length = s.par.p ∧
      ∀ k, k < s.par.p → pkt[k]? = some (s.rsp.slots.read (slotAddr s.par s.rsp.start + k)))

/-- 41_transport_bridge.md R145, with its encoding, ports and whole effect: the flagged stalls are asked to be cleared, and
nothing of the block changes but the wake. -/
def Obligations.SetupRelaysTheStallFlags : Prop :=
  encode .setup = 0x0A#8 ∧ legalPort .setup .t = true ∧ legalPort .setup .f = false ∧
  (∀ s : State, s.bus.port = .t → s.bus.stallIn = 0b00#2 →
    exec .setup s = .next { s with
      fAsleep := false
      history := s.history ++ [.cmd .t 0x0A#8 { stall := some 0b00#2 } { code := .ok }]
      result := some { code := .ok } }) ∧
  (∀ s : State, s.bus.port = .t → s.bus.stallIn ≠ 0b00#2 →
    exec .setup s = .next { s with
      fAsleep := false
      history := s.history ++ [.ep0Clr s.bus.stallIn, .cmd .t 0x0A#8 { stall := some s.bus.stallIn } { code := .ok }]
      result := some { code := .ok } })

/-- 42_command_loop.md R161, with its encoding, ports and whole effect: the F side is suspended exactly when REQ is empty or
RSP is full. It is the only suspension point: a step that suspends an awake F side is a WAIT on the F port, from outside or
the F agent's at L0, that found REQ empty or RSP full (60_exceptions.md R205). -/
def Obligations.WaitSuspendsWithoutWork : Prop :=
  encode .wait = 0x0B#8 ∧ legalPort .wait .f = true ∧ legalPort .wait .t = false ∧
  (∀ s : State, s.bus.port = .f → s.fAsleep = false →
    exec .wait s = .next { s with
      fAsleep := decide (s.req.start = s.req.endIdx ∨ (s.rsp.endIdx + 1) % s.par.n = s.rsp.start)
      history := s.history ++ [.cmd .f 0x0B#8 {} { code := .ok }]
      result := some { code := .ok } }) ∧
  (∀ s t : State, step s = .next t → s.fAsleep = false → t.fAsleep = true →
    (s.req.start = s.req.endIdx ∨ (s.rsp.endIdx + 1) % s.par.n = s.rsp.start) ∧
    ∃ rest, (∃ r, nextMove s = some (.command r, rest) ∧ r.port = .f ∧ r.cmd = 0x0B#8) ∨
      (nextMove s = some (.foreground, rest) ∧ s.loop.label = .l0))

/-- A command that would reach a slot beyond `N - 1` stops the machine with the model's own fault. 20_memory.md R50 and R52 give
no such slot and require the index to be in range, and R52 says that this never fails; they give no stop. The stop is the
model's reading (notes/assumptions/18.md, DEDUCED), in states that no run reaches (10_state.md R23). -/
def Obligations.MissingSlotStopsTheMachine : Prop :=
  (∀ s : State, s.bus.port = .t → s.par.n ≤ s.req.endIdx → (s.req.endIdx + 1) % s.par.n ≠ s.req.start →
    exec .pushReq s = .fault (.noSuchSlot .req s.req.endIdx)) ∧
  (∀ s : State, s.bus.port = .f → s.fAsleep = false → s.par.n ≤ s.rsp.endIdx →
    (s.rsp.endIdx + 1) % s.par.n ≠ s.rsp.start → exec .pushRsp s = .fault (.noSuchSlot .rsp s.rsp.endIdx)) ∧
  (∀ s : State, s.bus.port = .f → s.fAsleep = false → s.reqHeld = true → s.bus.idxIn = s.req.start →
    s.par.n ≤ s.req.start →
    exec .rdslotReq s = .fault (.noSuchSlot .req s.req.start) ∧
      exec .wrslotReq s = .fault (.noSuchSlot .req s.req.start)) ∧
  (∀ s : State, s.bus.port = .t → s.busy = true → s.rsp.start ≠ s.rsp.endIdx → s.par.n ≤ s.rsp.start →
    exec .txdone s = .fault (.noSuchSlot .rsp s.rsp.start)) ∧
  (∀ s : State, s.bus.port = .f → s.fAsleep = false → s.busy = false → s.rsp.start ≠ s.rsp.endIdx →
    s.par.n ≤ s.rsp.start → exec .kick s = .fault (.noSuchSlot .rsp s.rsp.start))

/-! ### Rules of the whole machine -/

/-- 10_state.md R21, R22: each index register has its one writer, and every write is `inc` of the register's own value. -/
def Obligations.EachIndexHasItsOneWriter : Prop :=
  ∀ (i : Instr) (s t : State), exec i s = .next t →
    (t.req.endIdx ≠ s.req.endIdx →
      i = .pushReq ∧ s.bus.port = .t ∧ t.req.endIdx = (s.req.endIdx + 1) % s.par.n) ∧
    (t.req.start ≠ s.req.start →
      i = .relReq ∧ s.bus.port = .f ∧ t.req.start = (s.req.start + 1) % s.par.n) ∧
    (t.rsp.endIdx ≠ s.rsp.endIdx →
      i = .pushRsp ∧ s.bus.port = .f ∧ t.rsp.endIdx = (s.rsp.endIdx + 1) % s.par.n) ∧
    (t.rsp.start ≠ s.rsp.start →
      ((i = .kick ∧ s.bus.port = .f ∧ s.busy = false) ∨ (i = .txdone ∧ s.bus.port = .t ∧ s.busy = true)) ∧
        t.rsp.start = (s.rsp.start + 1) % s.par.n)

/-- 20_memory.md R53: a byte of slot memory changes only in slot `end` of the channel a PUSH stores into, or in the held slot
`start` of REQ on WRSLOT. -/
def Obligations.SlotsAreWrittenOnlyThroughTheMultiplexer : Prop :=
  ∀ (i : Instr) (s t : State) (a : Nat), exec i s = .next t →
    (t.req.slots.read a ≠ s.req.slots.read a →
      (i = .pushReq ∧ slotAddr s.par s.req.endIdx ≤ a ∧ a < slotAddr s.par s.req.endIdx + s.par.p) ∨
      (i = .wrslotReq ∧ s.reqHeld = true ∧ slotAddr s.par s.req.start ≤ a ∧
        a < slotAddr s.par s.req.start + s.par.p)) ∧
    (t.rsp.slots.read a ≠ s.rsp.slots.read a →
      i = .pushRsp ∧ slotAddr s.par s.rsp.endIdx ≤ a ∧ a < slotAddr s.par s.rsp.endIdx + s.par.p)

/-- 10_state.md R31, 30_encoding.md R78 (the operands recorded: notes/assumptions/7.md): a served command appends its `CMD` event, after at most one other: a `TX` only from
KICK and TXDONE, an `EP0_CLR` only from SETUP. -/
def Obligations.EventsComeOnlyFromTheirCommands : Prop :=
  ∀ (i : Instr) (s t : State), (s.bus.port = .f → s.fAsleep = false) → exec i s = .next t →
    ∃ before r, t.result = some r ∧
      t.history = s.history ++ before ++ [.cmd s.bus.port (encode i) (operandsRead i s.bus) r] ∧
      (before = [] ∨ (∃ pkt, before = [.tx pkt] ∧ (i = .kick ∨ i = .txdone)) ∨
        (before = [.ep0Clr s.bus.stallIn] ∧ i = .setup))

/-- 10_state.md R31, 70_reset_and_hazards.md R220: no step but a reset changes or drops an event of the history. -/
def Obligations.HistoryIsOnlyAppendedTo : Prop :=
  ∀ s t : State, step s = .next t → (∀ rest, nextMove s ≠ some (.reset, rest)) → s.history <+: t.history

/-- 10_state.md R27: a command that ends in an error sets the bit of its port, and no step but a reset clears either bit. -/
def Obligations.StickyBitsClearOnlyByReset : Prop :=
  (∀ (i : Instr) (s t : State) (r : Result), (s.bus.port = .f → s.fAsleep = false) → exec i s = .next t →
    t.result = some r →
    t.tErr = (s.tErr || (r.code.isError && s.bus.port == .t)) ∧ t.fErr = (s.fErr || (r.code.isError && s.bus.port == .f))) ∧
  (∀ s t : State, step s = .next t → (∀ rest, nextMove s ≠ some (.reset, rest)) →
    (s.tErr = true → t.tErr = true) ∧ (s.fErr = true → t.fErr = true))

/-- 42_command_loop.md R162: every T-port command, whatever its code or result, leaves the F side awake; nothing else wakes
it but reset. -/
def Obligations.OnlyTransportCommandsAndResetWake : Prop :=
  (∀ (s t : State) (r : Request) (rest : List Input), nextMove s = some (.command r, rest) → r.port = .t →
    step s = .next t → t.fAsleep = false) ∧
  (∀ (s t : State) (e : UsbEvent) (rest : List Input), nextMove s = some (.event e, rest) → step s = .next t →
    t.fAsleep = false) ∧
  (∀ s t : State, step s = .next t → s.fAsleep = true → t.fAsleep = false →
    ∃ i rest, nextMove s = some (i, rest) ∧ ((∃ r, i = .command r ∧ r.port = .t) ∨ (∃ e, i = .event e) ∨ i = .reset))

/-- 10_state.md R25, R26, 41_transport_bridge.md R142: `busy` is set only by a KICK that sends and cleared only by a TXDONE
that finds RSP empty; `req_held` is set only by PEEK on a REQ that is not empty and cleared only by REL. -/
def Obligations.BusyAndHeldChangeOnlyByTheirCommands : Prop :=
  ∀ (i : Instr) (s t : State), exec i s = .next t →
    (t.busy ≠ s.busy →
      (i = .kick ∧ s.bus.port = .f ∧ s.rsp.isEmpty = false ∧ t.busy = true) ∨
      (i = .txdone ∧ s.bus.port = .t ∧ s.rsp.isEmpty = true ∧ t.busy = false)) ∧
    (t.reqHeld ≠ s.reqHeld →
      (i = .peekReq ∧ s.bus.port = .f ∧ s.req.isEmpty = false ∧ t.reqHeld = true) ∨
      (i = .relReq ∧ s.bus.port = .f ∧ s.bus.idxIn = s.req.start ∧ t.reqHeld = false))

/-- 00_scope.md R7: no step, not even a reset, changes a parameter. -/
def Obligations.ParametersNeverChange : Prop := ∀ s t : State, step s = .next t → t.par = s.par

/-- 10_state.md R24, 40_ring_channel.md R100: on a channel whose indices are in range, the flags and the fill count agree:
`inc` wraps only at the last slot, FILL is at most `N - 1`, EMPTY is FILL 0, FULL is FILL `N - 1`, never both. -/
def Obligations.FlagsFollowTheFillCount : Prop :=
  ∀ (par : Params) (c : Channel), c.start < par.n → c.endIdx < par.n →
    (∀ i, i < par.n → inc par i = (if i = par.n - 1 then 0 else i + 1)) ∧
    c.fill par ≤ par.n - 1 ∧ (c.fill par + c.start) % par.n = c.endIdx ∧
    (c.isEmpty = true ↔ c.fill par = 0) ∧ (c.isFull par = true ↔ c.fill par = par.n - 1) ∧
    ¬ (c.isEmpty = true ∧ c.isFull par = true)

/-- 20_memory.md R55 (derived there from R24): the filled slots are distinct, slot `end` is not one of them, so a PUSH writes
only a free slot; the head of a channel that is not empty is one of them. -/
def Obligations.SlotEndIsAlwaysFree : Prop :=
  ∀ (par : Params) (c : Channel), c.start < par.n → c.endIdx < par.n →
    (∀ k, k < c.fill par → (c.start + k) % par.n ≠ c.endIdx) ∧
    (∀ j k, j < c.fill par → k < c.fill par → (c.start + j) % par.n = (c.start + k) % par.n → j = k) ∧
    (c.isEmpty = false → 0 < c.fill par ∧ (c.start + 0) % par.n = c.start)

/-! ### Invariants -/

/-- The invariants of this file hold after reset, whatever the parameters. -/
def Obligations.InvariantsHoldAfterReset : Prop :=
  ∀ par : Params,
    (State.resetWith par).PairInv ∧
    (txPackets (State.resetWith par).history).length =
      txdonesAnswered (State.resetWith par).history + (State.resetWith par).busy.toNat ∧
    (State.resetWith par).tErr = errorOn .t (State.resetWith par).history ∧
    (State.resetWith par).fErr = errorOn .f (State.resetWith par).history

/-- 10_state.md R23, R32(a) and (b) (derived there), 20_memory.md R50: every step keeps the index registers in `[0, N)`, the
slot memories canonical and in range, and a held slot filled. -/
def Obligations.StepKeepsGoodStates : Prop := ∀ s t : State, s.Good → step s = .next t → t.Good

/-- 20_memory.md R52: from a good state no step reaches a slot that does not exist. -/
def Obligations.GoodStatesReachNoMissingSlot : Prop := ∀ (s : State) (f : Fault), s.Good → step s ≠ .fault f

/-- 10_state.md R32(c), 41_transport_bridge.md R144(a) (derived there): `busy` is the number of transmissions minus the number
of TXDONE commands that returned OK or IDLE, so at most one transmission is outstanding; every step keeps it. -/
def Obligations.BusyCountsTheOutstandingTransmission : Prop :=
  ∀ s t : State, (txPackets s.history).length = txdonesAnswered s.history + s.busy.toNat → step s = .next t →
    (txPackets t.history).length = txdonesAnswered t.history + t.busy.toNat

/-- 10_state.md R32(d) (derived there): a sticky bit is 1 exactly when a command of its port returned an error; every step
keeps it. -/
def Obligations.StickyBitsRecordTheErrors : Prop :=
  ∀ s t : State, s.tErr = errorOn .t s.history → s.fErr = errorOn .f s.history → step s = .next t →
    t.tErr = errorOn .t t.history ∧ t.fErr = errorOn .f t.history

/-- 20_memory.md R62, 41_transport_bridge.md R144(b) (derived there): the packets RSP stored are those transmitted, in order,
followed by those it still holds: none lost, none twice, none out of order. Every step of any program keeps it. -/
def Obligations.ResponsesLeaveInTheOrderStored : Prop :=
  ∀ s t : State, s.Good → storedRsp s.history = txPackets s.history ++ s.rsp.contents s.par → step s = .next t →
    storedRsp t.history = txPackets t.history ++ t.rsp.contents t.par

/-- 20_memory.md R55, R59, R60, R62: each channel is a bounded first-in first-out queue. A command answered OK changes the
queue as `reqQueueAfter` and `rspQueueAfter` say and any other result leaves it; RDSLOT returns REQ's head, KICK and TXDONE
transmit RSP's head, and FULL is returned exactly when `N - 1` packets are held. -/
def Obligations.ChannelsBehaveAsQueues : Prop :=
  ∀ (i : Instr) (s t : State) (r : Result), s.Good → (s.bus.port = .f → s.fAsleep = false) →
    s.bus.pktIn.length = s.par.p → exec i s = .next t → t.result = some r →
    t.req.contents t.par = reqQueueAfter i (r.code == .ok) s.bus.pktIn (s.req.contents s.par) ∧
    t.rsp.contents t.par = rspQueueAfter i (r.code == .ok) s.bus.pktIn (s.rsp.contents s.par) ∧
    (i = .rdslotReq → r.code = .ok → r.pktOut = (s.req.contents s.par).head? ∧ r.pktOut ≠ none) ∧
    (i = .kick ∨ i = .txdone → r.code = .ok →
      ∃ pkt, (s.rsp.contents s.par).head? = some pkt ∧ txPackets t.history = txPackets s.history ++ [pkt]) ∧
    (i = .pushReq → (r.code = .full ↔ s.bus.port = .t ∧ (s.req.contents s.par).length = s.par.n - 1)) ∧
    (i = .pushRsp → (r.code = .full ↔ s.bus.port = .f ∧ (s.rsp.contents s.par).length = s.par.n - 1))

/-- 20_memory.md R56 (derived there from R55): the bytes of free slots, and so the slot contents at reset, are never observed.
Two good states that differ only in them make the same step, to states that again differ only in them: same history, same
results, same flags. It rests on no value of notes/assumptions/3.md. -/
def Obligations.FreeSlotsAreNeverObserved : Prop :=
  ∀ s s' t : State, s.Good → s'.Good → AgreeOnFilled s s' → step s = .next t →
    ∃ t', step s' = .next t' ∧ AgreeOnFilled t t'

/-! ### The reference CommandLoop -/

/-- 42_command_loop.md R164, labels L0 to L2: WAIT and on to L1; PEEK, back to L0 on EMPTY and else on to L2 with the index;
STAT RSP, back to L0 if RSP is full and else on to L3. What the unread buses carry is the model's choice
(notes/assumptions/11.md) and not stated. -/
def Obligations.CommandLoopWaitsAndPeeks : Prop :=
  ∀ (s : State) (rest : List Input), nextMove s = some (.foreground, rest) →
    (s.loop.label = .l0 → ∃ t, step s = .next t ∧
      t = { s with
        fAsleep := (s.req.isEmpty || s.rsp.isFull s.par), inbox := rest, bus := t.bus
        history := s.history ++ [.cmd .f 0x0B#8 {} { code := .ok }], result := some { code := .ok }
        loop := { s.loop with label := .l1 } }) ∧
    (s.loop.label = .l1 → s.req.isEmpty = true → ∃ t, step s = .next t ∧
      t = { s with
        inbox := rest, bus := t.bus
        history := s.history ++ [.cmd .f 0x02#8 {} { code := .empty }], result := some { code := .empty }
        loop := { s.loop with label := .l0 } }) ∧
    (s.loop.label = .l1 → s.req.isEmpty = false → ∃ t, step s = .next t ∧
      t = { s with
        reqHeld := true, inbox := rest, bus := t.bus
        history := s.history ++ [.cmd .f 0x02#8 {} { code := .ok, idxOut := some s.req.start }]
        result := some { code := .ok, idxOut := some s.req.start }
        loop := { s.loop with label := .l2, idx := s.req.start } }) ∧
    (s.loop.label = .l2 → ∃ t, step s = .next t ∧
      t = { s with
        inbox := rest, bus := t.bus
        history := s.history ++ [.cmd .f 0x16#8 {} { code := .ok, statOut := some (status s .rsp) }]
        result := some { code := .ok, statOut := some (status s .rsp) }
        loop := { s.loop with label := (if s.rsp.isFull s.par then .l0 else .l3) } })

/-- 42_command_loop.md R163, R164, labels L3 to L5, for a held head: RDSLOT reads the request into `q`; `r := process(q)` is a
step of the F side alone, which changes nothing of the block; REL releases the request. That L4 is a step of its own is the
model's choice (notes/assumptions/12.md). -/
def Obligations.CommandLoopReadsProcessesAndReleases : Prop :=
  ∀ (s : State) (rest : List Input), nextMove s = some (.foreground, rest) →
    (s.loop.label = .l3 → s.reqHeld = true → s.loop.idx = s.req.start → s.req.start < s.par.n → ∃ t, step s = .next t ∧
      t = { s with
        inbox := rest, bus := t.bus
        history := s.history ++ [.cmd .f 0x03#8 { idx := some s.req.start }
          { code := .ok, pktOut := some (s.req.slotBytes s.par s.req.start) }]
        result := some { code := .ok, pktOut := some (s.req.slotBytes s.par s.req.start) }
        loop := { s.loop with label := .l4, q := s.req.slotBytes s.par s.req.start } }) ∧
    (s.loop.label = .l4 →
      step s = .next { s with
        inbox := rest
        loop := { s.loop with label := .l5, r := respond s.par s.loop.q } }) ∧
    (s.loop.label = .l5 → s.reqHeld = true → s.loop.idx = s.req.start → s.req.start < s.par.n → ∃ t, step s = .next t ∧
      t = { s with
        req := { s.req with start := (s.req.start + 1) % s.par.n }
        reqHeld := false, inbox := rest, bus := t.bus
        history := s.history ++ [.cmd .f 0x05#8 { idx := some s.req.start } { code := .ok }]
        result := some { code := .ok }
        loop := { s.loop with label := .l6 } })

/-- 42_command_loop.md R164, labels L6 to L8: PUSH RSP enqueues `r`; KICK continues whatever its result; then L0 again. That
L8 is a step of its own is the model's choice (notes/assumptions/12.md). -/
def Obligations.CommandLoopEnqueuesAndKicks : Prop :=
  ∀ (s : State) (rest : List Input), nextMove s = some (.foreground, rest) →
    (s.loop.label = .l6 → s.rsp.isFull s.par = false → s.rsp.endIdx < s.par.n → s.loop.r.length = s.par.p →
      ∃ t, step s = .next t ∧
        t = { s with
          rsp := { s.rsp.storeSlot s.par s.rsp.endIdx s.loop.r with endIdx := (s.rsp.endIdx + 1) % s.par.n }
          inbox := rest, bus := t.bus
          history := s.history ++ [.cmd .f 0x11#8 { pkt := some s.loop.r } { code := .ok }]
          result := some { code := .ok }
          loop := { s.loop with label := .l7 } }) ∧
    (s.loop.label = .l7 → s.rsp.start < s.par.n → ∃ t, step s = .next t ∧
      t = { s with
        rsp := (if s.busy || s.rsp.isEmpty then s.rsp else { s.rsp with start := (s.rsp.start + 1) % s.par.n })
        busy := (s.busy || !s.rsp.isEmpty), inbox := rest, bus := t.bus
        history := s.history ++
          (if s.busy || s.rsp.isEmpty then [] else [.tx (s.rsp.slotBytes s.par s.rsp.start)]) ++
          [.cmd .f 0x19#8 {} { code := (if s.busy then .busy else if s.rsp.isEmpty then .empty else .ok) }]
        result := some { code := (if s.busy then .busy else if s.rsp.isEmpty then .empty else .ok) }
        loop := { s.loop with label := .l8 } }) ∧
    (s.loop.label = .l8 → step s = .next { s with inbox := rest, loop := { s.loop with label := .l0 } })

/-- 42_command_loop.md R165, R166 (derived there): every step of a run of the reference CommandLoop keeps what the loop knows
at each label, RSP not full from L3 to L6 among it, and Idle implies an empty RSP at every label but L7. -/
def Obligations.StepKeepsTheCommandLoopInvariant : Prop :=
  ∀ s t : State, s.LoopInv → step s = .next t → t.LoopInv

/-- 42_command_loop.md R165 (derived there): the PUSH RSP at L6 always returns OK. -/
def Obligations.CommandLoopNeverDropsAResponse : Prop :=
  ∀ (s : State) (rest : List Input), s.LoopInv → s.loop.label = .l6 → nextMove s = some (.foreground, rest) →
    ∃ t, step s = .next t ∧ t.result = some { code := .ok } ∧
      t.rsp.contents t.par = s.rsp.contents s.par ++ [s.loop.r] ∧ t.loop.label = .l7

/-- 42_command_loop.md R164, R165, 60_exceptions.md R203: a run of the reference CommandLoop never stops: no missing slot and
no result operand read that its command did not drive; the F port never gains an error; and within the environment's contract
(USB events only) the T port gains none either. -/
def Obligations.CommandLoopNeverStops : Prop :=
  ∀ s : State, s.LoopInv → ∃ t, step s = .next t ∧ (t.fErr = true → s.fErr = true) ∧
    ((∀ i ∈ s.inbox, contractInput i = true) → t.tErr = true → s.tErr = true)

/-- 42_command_loop.md R167, 20_memory.md R62 (derived there): requests and responses are paired one to one and in order;
every step of a run of the reference CommandLoop keeps it, with T-port commands, USB events and resets in any order. -/
def Obligations.StepKeepsRequestsAndResponsesPaired : Prop :=
  ∀ s t : State, s.PairInv → step s = .next t → t.PairInv

/-- 42_command_loop.md R167, 41_transport_bridge.md R144 (derived there): what the transmitter received so far is a prefix of
the responses to the stored requests, in the order the requests were stored. -/
def Obligations.TransmissionsAnswerRequestsInOrder : Prop :=
  ∀ s t : State, s.PairInv → step s = .next t →
    txPackets t.history <+: (storedReq t.history).map (respond t.par)

/-- 70_reset_and_hazards.md R233 (derived there): in a run of the reference CommandLoop, a host with fewer than `N - 1`
requests stored whose responses were not yet transmitted causes no overrun: its next request is stored. -/
def Obligations.HostWithinCapacityCausesNoOverrun : Prop :=
  ∀ (s : State) (pkt : Packet) (rest : List Input), s.PairInv → s.inbox = .event (.receiveComplete pkt) :: rest →
    pkt.length = s.par.p → (storedReq s.history).length < (txPackets s.history).length + (s.par.n - 1) →
    ∃ t, step s = .next t ∧ t.result = some { code := .ok } ∧ storedReq t.history = storedReq s.history ++ [pkt]

/-- 41_transport_bridge.md R144(c) (derived there): while Sending, as many transmit-complete events as RSP holds packets, and
one more, transmit all of them in order and go Idle, without any F-port command. That the inbox is taken in order is the
model's choice (notes/assumptions/10.md). -/
def Obligations.TransmitCompletesDrainResponses : Prop :=
  ∀ (s : State) (later : List Input), s.Good → s.busy = true →
    s.inbox = List.replicate (s.rsp.fill s.par + 1) (.event .transmitComplete) ++ later →
    ∃ t, Host.Core.run Sys2Proof.core (s.rsp.fill s.par + 1) s = .next t ∧
      t.busy = false ∧ t.rsp.isEmpty = true ∧ t.req = s.req ∧ t.loop = s.loop ∧ t.inbox = later ∧
      txPackets t.history = txPackets s.history ++ s.rsp.contents s.par

/-- 42_command_loop.md R167, 60_exceptions.md R204 (derived there), with no interruption from outside: an awake F side at L1
with a request in REQ and a free slot in RSP is back at L0 after eight steps; the oldest request has left REQ, its response
is the newest of those sent or held, `busy` is set, and an arbiter that was Idle has sent exactly that response. The number
eight counts L4 and L8 as steps (notes/assumptions/12.md), and an empty inbox lets the F agent move (notes/assumptions/10.md):
both are the model's choices. -/
def Obligations.CommandLoopAnswersARequestInEightSteps : Prop :=
  ∀ s : State, s.LoopInv → s.loop.label = .l1 → s.fAsleep = false → s.inbox = [] → s.req.isEmpty = false →
    s.rsp.isFull s.par = false →
    ∃ t q rest, Host.Core.run Sys2Proof.core 8 s = .next t ∧ s.req.contents s.par = q :: rest ∧
      t.req.contents t.par = rest ∧ t.reqHeld = false ∧ t.loop.label = .l0 ∧ t.fAsleep = false ∧ t.busy = true ∧
      t.tErr = s.tErr ∧ t.fErr = s.fErr ∧
      txPackets t.history ++ t.rsp.contents t.par =
        txPackets s.history ++ s.rsp.contents s.par ++ [respond s.par q] ∧
      (s.busy = false → txPackets t.history = txPackets s.history ++ [respond s.par q])

/-- 42_command_loop.md R168 (derived there): an F side that wakes at L1 and finds no work runs one PEEK and one WAIT and sleeps
again; the channels and the arbiter do not change (an empty inbox lets the F side move, notes/assumptions/10.md). -/
def Obligations.WokenWithoutWorkSleepsAgain : Prop :=
  ∀ s : State, s.loop.label = .l1 → s.fAsleep = false → s.inbox = [] → s.req.isEmpty = true →
    ∃ t, Host.Core.run Sys2Proof.core 2 s = .next t ∧ t.fAsleep = true ∧ t.loop = s.loop ∧ nextMove t = none ∧
      t.req = s.req ∧ t.rsp = s.rsp ∧ t.busy = s.busy ∧ t.reqHeld = s.reqHeld ∧
      t.history = s.history ++ [.cmd .f 0x02#8 {} { code := .empty }, .cmd .f 0x0B#8 {} { code := .ok }]

/-! ### Listings -/

/-- 30_encoding.md R82: each pseudo-instruction is its expansion: the port, the word and the operand; ISEMPTY and ISFULL are
bits 0 and 1 of the status word their STAT returns, which are EMPTY and FULL. -/
def Obligations.PseudoInstructionsAreTheirExpansions : Prop :=
  ∀ par : Params,
    (∀ x, ∃ r, assemble par (lineRxdone x) = some r ∧ r.port = .t ∧ r.cmd = 0x01#8 ∧ r.pktIn = x.bytes par.p) ∧
    (∀ x, ∃ r, assemble par (lineEnq x) = some r ∧ r.port = .f ∧ r.cmd = 0x11#8 ∧ r.pktIn = x.bytes par.p) ∧
    (∃ r, assemble par lineConsume = some r ∧ r.port = .f ∧ r.cmd = 0x02#8) ∧
    (∀ i, ∃ r, assemble par (lineRelease i) = some r ∧ r.port = .f ∧ r.cmd = 0x05#8 ∧ r.idxIn = i) ∧
    (∀ port ch, ∃ r, assemble par (lineStat port ch) = some r ∧ r.port = port ∧
      r.cmd = (match ch with | .req => 0x06#8 | .rsp => 0x16#8)) ∧
    (∀ (s : State) (ch : Chan), s.par = par →
      isEmptyResult { code := .ok, statOut := some (status s ch) } = some (s.chan ch).isEmpty ∧
      isFullResult { code := .ok, statOut := some (status s ch) } = some ((s.chan ch).isFull par))

/-! ### The environment -/

/-- 60_exceptions.md R203, 92_eei_decisions.md D31: the environment's transmit-complete is a move only while `busy = 1`; it is
then answered OK or IDLE, never an error, and accounts for one transmission. While `busy = 0` it waits: what is offered after
it goes ahead, and a suspended machine with nothing else offered stays as it is (that it waits is the model's form of the
assumption, notes/assumptions/15.md). -/
def Obligations.TransmitCompleteOnlyWhileSending : Prop :=
  (∀ (s : State) (rest : List Input), nextMove s = some (.event .transmitComplete, rest) → s.busy = true) ∧
  (∀ (s : State) (rest : List Input), nextMove s = some (.event .transmitComplete, rest) → s.rsp.start < s.par.n →
    ∃ t r, step s = .next t ∧ t.result = some r ∧ (r.code = .ok ∨ r.code = .idle) ∧ t.tErr = s.tErr ∧
      txdonesAnswered t.history = txdonesAnswered s.history + 1) ∧
  (∀ s : State, s.busy = false → s.fAsleep = true → (∀ x ∈ s.inbox, x = .event .transmitComplete) → step s = .next s) ∧
  (∀ (s : State) (waiting rest : List Input) (r : Request) (i : Instr), s.busy = false →
    (∀ x ∈ waiting, x = .event .transmitComplete) → s.inbox = waiting ++ .command r :: rest →
    (r.port = .f → s.fAsleep = false) → r.wf s.par = true → decode r.cmd = .legal i →
    step s = exec i { s with inbox := waiting ++ rest, bus := r })
end

