-- ==== Sys2Proof/Laws/Memory.lean ====
section
/-! SUPPORT. The laws of slot memory: a read after a write, the canonical form, the address range, and the same for runs of
bytes and for whole slots (20_memory.md R50 to R52, R61). -/

namespace Sys2Proof.Machine

/-! ### One byte -/

theorem wfAbove_mono {lo lo' : Nat} (hle : lo' ≤ lo) : ∀ {m : Memory}, m.wfAbove lo = true → m.wfAbove lo' = true
  | [], _ => rfl
  | (b, v) :: rest, h => by
    simp only [Memory.wfAbove, Bool.and_eq_true, decide_eq_true_eq] at h ⊢
    exact ⟨⟨by omega, h.1.2⟩, h.2⟩

/-- An address below all listed ones reads as blank. -/
theorem read_below {lo a : Nat} (ha : a < lo) : ∀ {m : Memory}, m.wfAbove lo = true → m.read a = Memory.blank
  | [], _ => rfl
  | (b, v) :: rest, h => by
    simp only [Memory.wfAbove, Bool.and_eq_true, decide_eq_true_eq] at h
    have hb : b ≠ a := by omega
    simp only [Memory.read, hb, if_false]
    exact read_below (by omega) h.2

/-- A write keeps the canonical form. -/
theorem write_wfAbove {lo a : Nat} (v : Byte) (ha : lo ≤ a) :
    ∀ {m : Memory}, m.wfAbove lo = true → (m.write a v).wfAbove lo = true
  | [], _ => by
    unfold Memory.write
    split
    · rfl
    · simp_all [Memory.wfAbove]
  | (b, w) :: rest, h => by
    simp only [Memory.wfAbove, Bool.and_eq_true, decide_eq_true_eq] at h
    unfold Memory.write
    split_ifs with h1 h2 h3 h4
    · simp_all [Memory.wfAbove]
    · simp only [Memory.wfAbove, Bool.and_eq_true, decide_eq_true_eq, bne_iff_ne, ne_eq]
      exact ⟨⟨ha, h2⟩, ⟨by omega, by simpa using h.1.2⟩, h.2⟩
    · exact wfAbove_mono (by omega) h.2
    · simp only [Memory.wfAbove, Bool.and_eq_true, decide_eq_true_eq, bne_iff_ne, ne_eq]
      exact ⟨⟨ha, h4⟩, by rw [h3]; exact h.2⟩
    · simp only [Memory.wfAbove, Bool.and_eq_true, decide_eq_true_eq]
      exact ⟨h.1, write_wfAbove v (by omega) h.2⟩

theorem write_wf {m : Memory} (h : m.wf = true) (a : Nat) (v : Byte) : (m.write a v).wf = true :=
  write_wfAbove v (Nat.zero_le a) h

/-- A byte just written reads as written. -/
theorem read_write_same_above {lo : Nat} (a : Nat) (v : Byte) :
    ∀ {m : Memory}, m.wfAbove lo = true → (m.write a v).read a = v
  | [], _ => by
    unfold Memory.write
    split <;> simp_all [Memory.read]
  | (b, w) :: rest, h => by
    simp only [Memory.wfAbove, Bool.and_eq_true, decide_eq_true_eq] at h
    unfold Memory.write
    split_ifs with h1 h2 h3 h4
    · rw [h2]
      have hb : b ≠ a := by omega
      simp only [Memory.read, hb, if_false]
      exact read_below (by omega) h.2
    · simp [Memory.read]
    · rw [h4]; exact read_below (by omega) h.2
    · simp [Memory.read]
    · have hb : b ≠ a := fun e => h3 e.symm
      simp only [Memory.read, hb, if_false]
      exact read_write_same_above a v h.2

theorem read_write_same {m : Memory} (h : m.wf = true) (a : Nat) (v : Byte) : (m.write a v).read a = v :=
  read_write_same_above a v h

/-- A write leaves every other byte alone. -/
theorem read_write_other {a x : Nat} (hx : x ≠ a) (v : Byte) : ∀ (m : Memory), (m.write a v).read x = m.read x
  | [] => by
    unfold Memory.write
    split <;> simp_all [Memory.read, hx.symm]
  | (b, w) :: rest => by
    have hax : ¬ a = x := fun e => hx e.symm
    unfold Memory.write
    split_ifs with h1 h2 h3 h4
    · rfl
    · simp [Memory.read, hax]
    · subst h3; simp [Memory.read, hax]
    · subst h3; simp [Memory.read, hax]
    · simp only [Memory.read, read_write_other hx v rest]

/-- A write lists no address outside those listed and its own. -/
theorem mem_write {a : Nat} {v : Byte} {cell : Host.Cell} :
    ∀ {m : Memory}, cell ∈ m.write a v → cell ∈ m ∨ cell.1 = a
  | [], h => by
    unfold Memory.write at h
    split at h <;> simp_all
  | (b, w) :: rest, h => by
    unfold Memory.write at h
    split_ifs at h with h1 h2 h3 h4
    · exact .inl h
    · rcases List.mem_cons.1 h with rfl | h
      · exact .inr rfl
      · exact .inl h
    · exact .inl (List.mem_cons_of_mem _ h)
    · rcases List.mem_cons.1 h with rfl | h
      · exact .inr rfl
      · exact .inl (List.mem_cons_of_mem _ h)
    · rcases List.mem_cons.1 h with rfl | h
      · exact .inl (List.mem_cons_self ..)
      · rcases mem_write h with h | h
        · exact .inl (List.mem_cons_of_mem _ h)
        · exact .inr h

/-! ### Runs of bytes -/

@[simp] theorem readBytes_length (m : Memory) (a k : Nat) : (m.readBytes a k).length = k := by
  induction k generalizing a with
  | zero => rfl
  | succ k ih => simp [Memory.readBytes, ih]

theorem readBytes_congr {m m' : Memory} {a k : Nat} (h : ∀ x, a ≤ x → x < a + k → m.read x = m'.read x) :
    m.readBytes a k = m'.readBytes a k := by
  induction k generalizing a with
  | zero => rfl
  | succ k ih =>
    simp only [Memory.readBytes]
    rw [h a (by omega) (by omega), ih fun x h1 h2 => h x (by omega) (by omega)]

/-- Byte `j` of a run is the byte at `a + j`. -/
theorem readBytes_getD (m : Memory) (a k j : Nat) (hj : j < k) : (m.readBytes a k).getD j 0x00#8 = m.read (a + j) := by
  induction k generalizing a j with
  | zero => omega
  | succ k ih =>
    cases j with
    | zero => rfl
    | succ j => simp only [Memory.readBytes, List.getD_cons_succ]; rw [ih (a + 1) j (by omega)]; congr 1; omega

theorem writeBytes_wf {m : Memory} (h : m.wf = true) (a : Nat) (bs : List Byte) : (m.writeBytes a bs).wf = true := by
  induction bs generalizing m a with
  | nil => exact h
  | cons b bs ih => exact ih (write_wf h a b) (a + 1)

/-- Bytes outside a written run read as before. -/
theorem read_writeBytes_other {a x : Nat} (bs : List Byte) (hx : x < a ∨ a + bs.length ≤ x) (m : Memory) :
    (m.writeBytes a bs).read x = m.read x := by
  induction bs generalizing m a with
  | nil => rfl
  | cons b bs ih =>
    simp only [List.length_cons] at hx
    rw [Memory.writeBytes, ih (by omega), read_write_other (by omega)]

/-- The bytes of a written run read as written. -/
theorem readBytes_writeBytes_same {m : Memory} (h : m.wf = true) (a : Nat) (bs : List Byte) :
    (m.writeBytes a bs).readBytes a bs.length = bs := by
  induction bs generalizing m a with
  | nil => rfl
  | cons b bs ih =>
    simp only [Memory.writeBytes, List.length_cons, Memory.readBytes]
    rw [read_writeBytes_other bs (by omega), read_write_same h, ih (write_wf h a b)]

theorem mem_writeBytes {cell : Host.Cell} {m : Memory} {a : Nat} {bs : List Byte} (h : cell ∈ m.writeBytes a bs) :
    cell ∈ m ∨ (a ≤ cell.1 ∧ cell.1 < a + bs.length) := by
  induction bs generalizing m a with
  | nil => exact .inl h
  | cons b bs ih =>
    simp only [List.length_cons]
    rcases ih h with h | h
    · rcases mem_write h with h | h
      · exact .inl h
      · exact .inr ⟨by omega, by omega⟩
    · exact .inr ⟨by omega, by omega⟩

/-! ### Packets and slots -/

@[simp] theorem fit_length (p : Nat) (pkt : Packet) : (Packet.fit p pkt).length = p := by
  simp [Packet.fit]

/-- A packet of the right length passes a packet bus unchanged. -/
theorem fit_of_length {p : Nat} {pkt : Packet} (h : pkt.length = p) : Packet.fit p pkt = pkt := by
  unfold Packet.fit
  rw [List.take_append_of_le_length (by omega), List.take_of_length_le (by omega)]

@[simp] theorem fit_fit (p : Nat) (pkt : Packet) : Packet.fit p (Packet.fit p pkt) = Packet.fit p pkt :=
  fit_of_length (fit_length p pkt)

/-- The bytes of two different slots do not overlap. -/
theorem slots_disjoint {p i j x : Nat} (h : i ≠ j) (h1 : i * p ≤ x) (h2 : x < i * p + p) : x < j * p ∨ j * p + p ≤ x := by
  rcases Nat.lt_or_gt_of_ne h with h | h
  · left
    have : (i + 1) * p ≤ j * p := Nat.mul_le_mul_right p h
    rw [Nat.add_mul, Nat.one_mul] at this
    omega
  · right
    have : (j + 1) * p ≤ i * p := Nat.mul_le_mul_right p h
    rw [Nat.add_mul, Nat.one_mul] at this
    omega

/-- A slot that exists lies inside the channel's `N * P` bytes. -/
theorem slot_end_le {par : Params} {i : Nat} (h : i < par.n) : i * par.p + par.p ≤ par.n * par.p := by
  have : (i + 1) * par.p ≤ par.n * par.p := Nat.mul_le_mul_right par.p h
  rwa [Nat.add_mul, Nat.one_mul] at this

@[simp] theorem storeSlot_start (par : Params) (c : Channel) (i : Nat) (pkt : Packet) :
    (c.storeSlot par i pkt).start = c.start := rfl

@[simp] theorem storeSlot_endIdx (par : Params) (c : Channel) (i : Nat) (pkt : Packet) :
    (c.storeSlot par i pkt).endIdx = c.endIdx := rfl

@[simp] theorem slotBytes_length (par : Params) (c : Channel) (i : Nat) : (c.slotBytes par i).length = par.p := by
  simp [Channel.slotBytes]

/-- The slot written holds the packet written. -/
theorem slotBytes_storeSlot_same {par : Params} {c : Channel} (h : c.slots.wf = true) (i : Nat) (pkt : Packet) :
    (c.storeSlot par i pkt).slotBytes par i = Packet.fit par.p pkt := by
  have := readBytes_writeBytes_same h (slotAddr par i) (Packet.fit par.p pkt)
  rwa [fit_length] at this

/-- Every other slot keeps its packet. -/
theorem slotBytes_storeSlot_other {par : Params} {i j : Nat} (hij : j ≠ i) (c : Channel) (pkt : Packet) :
    (c.storeSlot par i pkt).slotBytes par j = c.slotBytes par j := by
  refine readBytes_congr fun x h1 h2 => read_writeBytes_other _ ?_ _
  rw [fit_length]
  exact slots_disjoint hij h1 h2

end Sys2Proof.Machine
end

