-- ==== Sys2Proof/Laws/Flags.lean ====
section
/-! SUPPORT. Index arithmetic, the computed flags, and what a channel's contents are after each thing a command can do to it
(10_state.md R23, R24; 20_memory.md R55; 40_ring_channel.md R100). -/

namespace Sys2Proof.Machine

/-! ### Indices -/

theorem n_pos (par : Params) : 0 < par.n := by have := par.two_le_n; omega

theorem inc_lt (par : Params) (i : Nat) : inc par i < par.n := Nat.mod_lt _ (n_pos par)

/-- `inc` is `i + 1`, but 0 at the last slot (R100). -/
theorem inc_eq {par : Params} {i : Nat} (h : i < par.n) : inc par i = if i + 1 = par.n then 0 else i + 1 := by
  unfold inc
  split
  · next h' => rw [h', Nat.mod_self]
  · exact Nat.mod_eq_of_lt (by omega)

/-- The `k`-th slot from an index on. -/
theorem wrap_eq {n i k : Nat} (hi : i < n) (hk : k < n) : (i + k) % n = if i + k < n then i + k else i + k - n := by
  split
  · exact Nat.mod_eq_of_lt ‹_›
  · rw [Nat.mod_eq_sub_mod (by omega), Nat.mod_eq_of_lt (by omega)]

/-- `IDX_W` bits hold every index, and at most 8 are needed (00_scope.md R7). -/
theorem idxW_bounds (par : Params) : 1 ≤ par.idxW ∧ par.idxW ≤ 8 ∧ par.n ≤ 2 ^ par.idxW := by
  unfold Params.idxW
  cases h : (List.range 9).find? fun w => decide (1 ≤ w) && decide (par.n ≤ 2 ^ w) with
  | none =>
    have h8 := List.find?_eq_none.1 h 8 (by decide)
    have := par.n_le
    simp at h8
    omega
  | some w =>
    have hw := List.find?_some h
    have hm := List.mem_range.1 (List.mem_of_find?_eq_some h)
    simp only [Bool.and_eq_true, decide_eq_true_eq] at hw
    exact ⟨hw.1, by simpa using Nat.le_of_lt_succ hm, hw.2⟩

/-! ### Flags -/

/-- `FILL` as a difference of indices (R24). -/
theorem fill_eq {par : Params} {c : Channel} (hs : c.start < par.n) (he : c.endIdx < par.n) :
    c.fill par = if c.start ≤ c.endIdx then c.endIdx - c.start else par.n + c.endIdx - c.start := by
  unfold Channel.fill
  split
  · next h =>
    have e : (c.endIdx : Int) - (c.start : Int) = ((c.endIdx - c.start : Nat) : Int) := by omega
    rw [e, ← Int.natCast_emod, Nat.mod_eq_of_lt (by omega)]
    rfl
  · next h =>
    rw [← Int.add_emod_right]
    have e : (c.endIdx : Int) - (c.start : Int) + (par.n : Int) = ((par.n + c.endIdx - c.start : Nat) : Int) := by omega
    rw [e, ← Int.natCast_emod, Nat.mod_eq_of_lt (by omega)]
    rfl

theorem channel_isEmpty_iff (c : Channel) : c.isEmpty = true ↔ c.start = c.endIdx := by simp [Channel.isEmpty]

theorem channel_notEmpty_iff (c : Channel) : c.isEmpty = false ↔ c.start ≠ c.endIdx := by simp [Channel.isEmpty]

theorem channel_isFull_iff (par : Params) (c : Channel) : c.isFull par = true ↔ inc par c.endIdx = c.start := by
  simp [Channel.isFull]

theorem channel_notFull_iff (par : Params) (c : Channel) : c.isFull par = false ↔ inc par c.endIdx ≠ c.start := by
  simp [Channel.isFull]

@[simp] theorem contents_length (par : Params) (c : Channel) : (c.contents par).length = c.fill par := by
  simp [Channel.contents]

/-- An empty channel holds nothing. -/
theorem contents_of_empty {par : Params} {c : Channel} (h : c.isEmpty = true) : c.contents par = [] := by
  rw [channel_isEmpty_iff] at h
  have : c.fill par = 0 := by unfold Channel.fill; rw [h]; simp
  simp [Channel.contents, this]

/-- A packet pushed joins the contents at the end (R103, R104). -/
theorem contents_push {par : Params} {c : Channel} (hg : c.Good par) (hf : c.isFull par = false) (pkt : Packet) :
    Channel.contents par { c.storeSlot par c.endIdx pkt with endIdx := inc par c.endIdx } =
      c.contents par ++ [Packet.fit par.p pkt] := by
  obtain ⟨hs, he, hw, -⟩ := hg
  rw [channel_notFull_iff, inc_eq he] at hf
  have hfill : Channel.fill par { c.storeSlot par c.endIdx pkt with endIdx := inc par c.endIdx } = c.fill par + 1 := by
    rw [fill_eq (c := { c.storeSlot par c.endIdx pkt with endIdx := inc par c.endIdx }) hs (inc_lt _ _), fill_eq hs he]
    simp only [storeSlot_start, inc_eq he]
    split_ifs at hf ⊢ <;> omega
  have hlt : c.fill par < par.n := by rw [fill_eq hs he]; split <;> omega
  have hlast : (c.start + c.fill par) % par.n = c.endIdx := by
    rw [wrap_eq hs hlt, fill_eq hs he]; split_ifs <;> omega
  unfold Channel.contents
  rw [hfill, List.range_succ, List.map_append, List.map_singleton]
  congr 1
  · refine List.map_congr_left fun k hk => ?_
    have hk : k < c.fill par := List.mem_range.1 hk
    refine slotBytes_storeSlot_other ?_ c pkt
    simp only [storeSlot_start]
    rw [wrap_eq hs (by omega)]
    rw [fill_eq hs he] at hk
    split_ifs at hk ⊢ <;> omega
  · simp only [storeSlot_start]
    rw [hlast]
    exact congrArg (fun x => [x]) (slotBytes_storeSlot_same hw _ _)

/-- A channel that is not empty: its head first, and the rest is what a release leaves (R108, R143, R160). -/
theorem contents_release {par : Params} {c : Channel} (hg : c.Good par) (hne : c.isEmpty = false) :
    c.contents par = c.slotBytes par c.start :: Channel.contents par { c with start := inc par c.start } := by
  obtain ⟨hs, he, -, -⟩ := hg
  rw [channel_notEmpty_iff] at hne
  have hfill : c.fill par = Channel.fill par { c with start := inc par c.start } + 1 := by
    rw [fill_eq (c := { c with start := inc par c.start }) (inc_lt _ _) he, fill_eq hs he]
    simp only [inc_eq hs]
    split_ifs <;> omega
  have hlt : c.fill par < par.n := by rw [fill_eq hs he]; split <;> omega
  unfold Channel.contents
  rw [hfill, List.range_succ_eq_map, List.map_cons, List.map_map]
  congr 1
  · rw [Nat.add_zero, Nat.mod_eq_of_lt hs]
  · refine List.map_congr_left fun k hk => ?_
    have hk := List.mem_range.1 hk
    show c.slotBytes par ((c.start + (k + 1)) % par.n) = c.slotBytes par ((inc par c.start + k) % par.n)
    congr 1
    unfold inc
    rw [Nat.mod_add_mod]
    congr 1
    omega

/-- Writing the head slot in place replaces the head of the contents (R107). -/
theorem contents_rewriteHead {par : Params} {c : Channel} (hg : c.Good par) (hne : c.isEmpty = false) (pkt : Packet) :
    Channel.contents par (c.storeSlot par c.start pkt) = Packet.fit par.p pkt :: (c.contents par).tail := by
  obtain ⟨hs, he, hw, -⟩ := hg
  rw [channel_notEmpty_iff] at hne
  have hfill : Channel.fill par (c.storeSlot par c.start pkt) = c.fill par := rfl
  have hpos : c.fill par = (c.fill par - 1) + 1 := by
    have : c.fill par ≠ 0 := by rw [fill_eq hs he]; split_ifs <;> omega
    omega
  have hlt : c.fill par < par.n := by rw [fill_eq hs he]; split <;> omega
  unfold Channel.contents
  rw [hfill, hpos, List.range_succ_eq_map, List.map_cons, List.map_map, List.map_cons, List.map_map, List.tail_cons]
  congr 1
  · simp only [storeSlot_start]
    rw [Nat.add_zero, Nat.mod_eq_of_lt hs]
    exact slotBytes_storeSlot_same hw _ _
  · refine List.map_congr_left fun k hk => ?_
    have hk := List.mem_range.1 hk
    refine slotBytes_storeSlot_other ?_ c pkt
    show (c.start + (k + 1)) % par.n ≠ c.start
    rw [wrap_eq hs (by omega)]
    split_ifs <;> omega

/-! ### The status word -/

/-- The status word field by field (10_state.md R30), for indices in range. -/
theorem status_fields (s : State) (ch : Chan) (h1 : (s.chan ch).start < s.par.n) (h2 : (s.chan ch).endIdx < s.par.n) :
    (status s ch).getLsbD 0 = decide ((s.chan ch).start = (s.chan ch).endIdx) ∧
      (status s ch).getLsbD 1 = decide (((s.chan ch).endIdx + 1) % s.par.n = (s.chan ch).start) ∧
      (status s ch).getLsbD 2 = s.busy ∧ (status s ch).getLsbD 3 = heldBit s ch ∧ (status s ch).getLsbD 4 = s.tErr ∧ (status s ch).getLsbD 5 = s.fErr ∧
      (status s ch).extractLsb' 6 2 = 0#2 ∧ ((status s ch).extractLsb' 8 8).toNat = (s.chan ch).start ∧ ((status s ch).extractLsb' 16 8).toNat = (s.chan ch).endIdx ∧
      ((status s ch).extractLsb' 24 8).toNat =
        (if (s.chan ch).start ≤ (s.chan ch).endIdx then (s.chan ch).endIdx - (s.chan ch).start else s.par.n + (s.chan ch).endIdx - (s.chan ch).start) := by
  have hn := s.par.n_le
  have hf : (s.chan ch).fill s.par < 256 := by rw [fill_eq h1 h2]; split <;> omega
  rw [← fill_eq h1 h2]
  generalize hF : (s.chan ch).fill s.par = F at *
  generalize hS : (s.chan ch).start = S at *
  generalize hE : (s.chan ch).endIdx = E at *
  have e1 : decide (S = E) = (s.chan ch).isEmpty := by rw [← hS, ← hE]; simp only [Channel.isEmpty]; rfl
  have e2 : decide ((E + 1) % s.par.n = S) = (s.chan ch).isFull s.par := by rw [← hS, ← hE]; simp only [Channel.isFull, inc]; rfl
  rw [e1, e2]
  simp only [status, hF, hS, hE]
  generalize (s.chan ch).isEmpty = a1
  generalize (s.chan ch).isFull s.par = a2
  generalize s.busy = a3
  generalize heldBit s ch = a4
  generalize s.tErr = a5
  generalize s.fErr = a6
  have hx : ∀ k, k < 256 → k = (BitVec.ofNat 8 k).toNat := by intro k hk; simp; omega
  have hS' := hx S (by omega)
  have hE' := hx E (by omega)
  have hF' := hx F hf
  refine ⟨?_, ?_, ?_, ?_, ?_, ?_, ?_, ?_, ?_, ?_⟩
  · simp only [BitVec.getLsbD_append]; simp
  · simp only [BitVec.getLsbD_append]; simp
  · simp only [BitVec.getLsbD_append]; simp
  · simp only [BitVec.getLsbD_append]; simp
  · simp only [BitVec.getLsbD_append]; simp
  · simp only [BitVec.getLsbD_append]; simp
  · apply BitVec.eq_of_getLsbD_eq
    intro i hi
    interval_cases i <;> (simp only [BitVec.getLsbD_extractLsb', BitVec.getLsbD_append]; simp)
  · conv_rhs => rw [hS']
    congr 1
    apply BitVec.eq_of_getLsbD_eq
    intro i hi
    interval_cases i <;> (simp only [BitVec.getLsbD_extractLsb', BitVec.getLsbD_append]; simp)
  · conv_rhs => rw [hE']
    congr 1
    apply BitVec.eq_of_getLsbD_eq
    intro i hi
    interval_cases i <;> (simp only [BitVec.getLsbD_extractLsb', BitVec.getLsbD_append]; simp)
  · conv_rhs => rw [hF']
    congr 1
    apply BitVec.eq_of_getLsbD_eq
    intro i hi
    interval_cases i <;> (simp only [BitVec.getLsbD_extractLsb', BitVec.getLsbD_append]; simp)

/-! ### The structural invariant of a channel -/

theorem good_storeSlot {par : Params} {c : Channel} (hg : c.Good par) {i : Nat} (hi : i < par.n) (pkt : Packet) :
    Channel.Good par (c.storeSlot par i pkt) := by
  obtain ⟨hs, he, hw, ha⟩ := hg
  refine ⟨hs, he, writeBytes_wf hw _ _, fun cell hc => ?_⟩
  rcases mem_writeBytes hc with h | h
  · exact ha cell h
  · rw [fit_length] at h
    have := slot_end_le hi
    unfold slotAddr at h
    omega

theorem good_setStart {par : Params} {c : Channel} (hg : c.Good par) :
    Channel.Good par { c with start := inc par c.start } := ⟨inc_lt _ _, hg.2⟩

theorem good_setEnd {par : Params} {c : Channel} (hg : c.Good par) :
    Channel.Good par { c with endIdx := inc par c.endIdx } := ⟨hg.1, inc_lt _ _, hg.2.2⟩

theorem good_reset (par : Params) : Channel.Good par Channel.reset :=
  ⟨n_pos par, n_pos par, rfl, fun _ h => absurd h List.not_mem_nil⟩

end Sys2Proof.Machine
end

