-- ==== Sys2Proof/Laws/State.lean ====
section
/-! SUPPORT. The field lemmas of the state's updates: one per field per update that a proof meets, each true by rfl or by
the channel's two cases, so that no later proof unfolds a record update. -/

namespace Sys2Proof.Machine

section chan
variable (s : State) (c : Channel) (ch : Chan)

@[simp] theorem chan_req : s.chan .req = s.req := rfl
@[simp] theorem chan_rsp : s.chan .rsp = s.rsp := rfl
@[simp] theorem setChan_req : s.setChan .req c = { s with req := c } := rfl
@[simp] theorem setChan_rsp : s.setChan .rsp c = { s with rsp := c } := rfl
@[simp] theorem setChan_par : (s.setChan ch c).par = s.par := by cases ch <;> rfl
@[simp] theorem setChan_busy : (s.setChan ch c).busy = s.busy := by cases ch <;> rfl
@[simp] theorem setChan_reqHeld : (s.setChan ch c).reqHeld = s.reqHeld := by cases ch <;> rfl
@[simp] theorem setChan_tErr : (s.setChan ch c).tErr = s.tErr := by cases ch <;> rfl
@[simp] theorem setChan_fErr : (s.setChan ch c).fErr = s.fErr := by cases ch <;> rfl
@[simp] theorem setChan_fAsleep : (s.setChan ch c).fAsleep = s.fAsleep := by cases ch <;> rfl
@[simp] theorem setChan_history : (s.setChan ch c).history = s.history := by cases ch <;> rfl
@[simp] theorem setChan_bus : (s.setChan ch c).bus = s.bus := by cases ch <;> rfl
@[simp] theorem setChan_result : (s.setChan ch c).result = s.result := by cases ch <;> rfl
@[simp] theorem setChan_loop : (s.setChan ch c).loop = s.loop := by cases ch <;> rfl
@[simp] theorem setChan_inbox : (s.setChan ch c).inbox = s.inbox := by cases ch <;> rfl
@[simp] theorem chan_setChan_same : (s.setChan ch c).chan ch = c := by cases ch <;> rfl
end chan

section advance
variable (s : State) (ch : Chan)

@[simp] theorem advanceStart_req :
    advanceStart .req s = { s with req := { s.req with start := inc s.par s.req.start } } := rfl
@[simp] theorem advanceStart_rsp :
    advanceStart .rsp s = { s with rsp := { s.rsp with start := inc s.par s.rsp.start } } := rfl
@[simp] theorem advanceEnd_req :
    advanceEnd .req s = { s with req := { s.req with endIdx := inc s.par s.req.endIdx } } := rfl
@[simp] theorem advanceEnd_rsp :
    advanceEnd .rsp s = { s with rsp := { s.rsp with endIdx := inc s.par s.rsp.endIdx } } := rfl
end advance

section emit
variable (s : State) (e : Event)

@[simp] theorem emit_par : (s.emit e).par = s.par := rfl
@[simp] theorem emit_req : (s.emit e).req = s.req := rfl
@[simp] theorem emit_rsp : (s.emit e).rsp = s.rsp := rfl
@[simp] theorem emit_busy : (s.emit e).busy = s.busy := rfl
@[simp] theorem emit_reqHeld : (s.emit e).reqHeld = s.reqHeld := rfl
@[simp] theorem emit_tErr : (s.emit e).tErr = s.tErr := rfl
@[simp] theorem emit_fErr : (s.emit e).fErr = s.fErr := rfl
@[simp] theorem emit_fAsleep : (s.emit e).fAsleep = s.fAsleep := rfl
@[simp] theorem emit_history : (s.emit e).history = s.history ++ [e] := rfl
@[simp] theorem emit_bus : (s.emit e).bus = s.bus := rfl
@[simp] theorem emit_result : (s.emit e).result = s.result := rfl
@[simp] theorem emit_loop : (s.emit e).loop = s.loop := rfl
@[simp] theorem emit_inbox : (s.emit e).inbox = s.inbox := rfl
end emit

section raiseError
variable (s : State)

@[simp] theorem raiseError_par : (raiseError s).par = s.par := by unfold raiseError; split <;> rfl
@[simp] theorem raiseError_req : (raiseError s).req = s.req := by unfold raiseError; split <;> rfl
@[simp] theorem raiseError_rsp : (raiseError s).rsp = s.rsp := by unfold raiseError; split <;> rfl
@[simp] theorem raiseError_busy : (raiseError s).busy = s.busy := by unfold raiseError; split <;> rfl
@[simp] theorem raiseError_reqHeld : (raiseError s).reqHeld = s.reqHeld := by unfold raiseError; split <;> rfl
@[simp] theorem raiseError_fAsleep : (raiseError s).fAsleep = s.fAsleep := by unfold raiseError; split <;> rfl
@[simp] theorem raiseError_history : (raiseError s).history = s.history := by unfold raiseError; split <;> rfl
@[simp] theorem raiseError_bus : (raiseError s).bus = s.bus := by unfold raiseError; split <;> rfl
@[simp] theorem raiseError_result : (raiseError s).result = s.result := by unfold raiseError; split <;> rfl
@[simp] theorem raiseError_loop : (raiseError s).loop = s.loop := by unfold raiseError; split <;> rfl
@[simp] theorem raiseError_inbox : (raiseError s).inbox = s.inbox := by unfold raiseError; split <;> rfl

/-- Each port's command sets its own sticky bit and leaves the other's (60_exceptions.md R192). -/
@[simp] theorem raiseError_tErr : (raiseError s).tErr = (s.tErr || s.bus.port == .t) := by
  unfold raiseError; split <;> simp_all

@[simp] theorem raiseError_fErr : (raiseError s).fErr = (s.fErr || s.bus.port == .f) := by
  unfold raiseError; split <;> simp_all
end raiseError

section conclude
variable (w : CmdWord) (ops : Operands) (r : Result) (s : State)

@[simp] theorem conclude_par : (conclude w ops r s).par = s.par := rfl
@[simp] theorem conclude_req : (conclude w ops r s).req = s.req := rfl
@[simp] theorem conclude_rsp : (conclude w ops r s).rsp = s.rsp := rfl
@[simp] theorem conclude_busy : (conclude w ops r s).busy = s.busy := rfl
@[simp] theorem conclude_reqHeld : (conclude w ops r s).reqHeld = s.reqHeld := rfl
@[simp] theorem conclude_tErr : (conclude w ops r s).tErr = s.tErr := rfl
@[simp] theorem conclude_fErr : (conclude w ops r s).fErr = s.fErr := rfl
@[simp] theorem conclude_history : (conclude w ops r s).history = s.history ++ [.cmd s.bus.port w ops r] := rfl
@[simp] theorem conclude_bus : (conclude w ops r s).bus = s.bus := rfl
@[simp] theorem conclude_result : (conclude w ops r s).result = some r := rfl
@[simp] theorem conclude_loop : (conclude w ops r s).loop = s.loop := rfl
@[simp] theorem conclude_inbox : (conclude w ops r s).inbox = s.inbox := rfl

/-- A T-port command wakes the F side; an F-port command leaves it (42_command_loop.md R162). -/
@[simp] theorem conclude_fAsleep : (conclude w ops r s).fAsleep = (s.bus.port == .f && s.fAsleep) := by
  unfold conclude; cases s.bus.port <;> rfl
end conclude

section bare
variable (c : ResCode)

@[simp] theorem bare_code : (Result.bare c).code = c := rfl
@[simp] theorem bare_idxOut : (Result.bare c).idxOut = none := rfl
@[simp] theorem bare_pktOut : (Result.bare c).pktOut = none := rfl
@[simp] theorem bare_statOut : (Result.bare c).statOut = none := rfl
end bare

end Sys2Proof.Machine
end

