-- ==== Sys2Proof/Laws/Frame.lean ====
section
/-! SUPPORT. What a command can do, said once: the execution frame, the body of every command, and the inversion of `exec`
(40_ring_channel.md R101; 60_exceptions.md R192). Later proofs cite `exec_inv` and case on `BodyDone`. -/

namespace Sys2Proof.Machine

/-! ### The frame -/

theorem accepts_iff (s : State) : accepts s = true ↔ (s.bus.port = .f → s.fAsleep = false) := by
  unfold accepts
  cases s.bus.port <;> simp

theorem accepts_t {s : State} (h : s.bus.port = .t) : accepts s = true := by simp [accepts, h]

theorem accepts_f {s : State} (h : s.bus.port = .f) : accepts s = !s.fAsleep := by simp [accepts, h]

/-- A served command on a legal port whose body is done. -/
theorem perform_done {i : Instr} {body : State → Effect} {s s' : State} {r : Result} (ha : accepts s = true)
    (hp : legalPort i s.bus.port = true) (hb : body s = .done s' r) :
    perform i body s = .next (conclude (encode i) (operandsRead i s.bus) r s') := by
  simp [perform, ha, hp, hb]

/-- A served command on a legal port whose body raises an error. -/
theorem perform_raised {i : Instr} {body : State → Effect} {s : State} {e : ResCode} (ha : accepts s = true)
    (hp : legalPort i s.bus.port = true) (hb : body s = .raised e) :
    perform i body s = .next (takeError (encode i) (operandsRead i s.bus) e s) := by
  simp [perform, ha, hp, hb]

/-- A served command whose body reaches a slot that does not exist. -/
theorem perform_stop {i : Instr} {body : State → Effect} {s : State} {f : Fault} (ha : accepts s = true)
    (hp : legalPort i s.bus.port = true) (hb : body s = .stop f) : perform i body s = .fault f := by
  simp [perform, ha, hp, hb]

/-- A command on a port that may not issue it. -/
theorem perform_wrongPort {i : Instr} {body : State → Effect} {s : State} (ha : accepts s = true)
    (hp : legalPort i s.bus.port = false) :
    perform i body s = .next (takeError (encode i) (operandsRead i s.bus) .errPort s) := by
  simp [perform, ha, hp]

/-- A command the F port does not accept. -/
theorem perform_waits {i : Instr} {body : State → Effect} {s : State} (ha : accepts s = false) :
    perform i body s = .next s := by
  simp [perform, ha]

/-! ### The bodies -/

/-- An overrun stores nothing (R103, R104). -/
theorem pushBody_full {ch : Chan} {s : State} (h : (s.chan ch).isFull s.par = true) :
    pushBody ch s = .done s (.bare .full) := by
  simp [pushBody, h]

/-- A push into a free slot (R103, R104). -/
theorem pushBody_ok {ch : Chan} {s : State} (h : (s.chan ch).isFull s.par = false) (he : (s.chan ch).endIdx < s.par.n) :
    pushBody ch s = .done (s.setChan ch
      { (s.chan ch).storeSlot s.par (s.chan ch).endIdx s.bus.pktIn with endIdx := inc s.par (s.chan ch).endIdx })
      (.bare .ok) := by
  cases ch <;> simp_all [pushBody, slotWrite, Channel.storeSlot]

/-- A push at a slot that does not exist. -/
theorem pushBody_stop {ch : Chan} {s : State} (h : (s.chan ch).isFull s.par = false) (he : s.par.n ≤ (s.chan ch).endIdx) :
    pushBody ch s = .stop (.noSuchSlot ch (s.chan ch).endIdx) := by
  simp [pushBody, h, slotWrite, not_lt.2 he]

/-- The arbiter's hand-off: the head is emitted and released, or the slot does not exist (R143, R160). -/
theorem sendHead_eq (s : State) :
    sendHead s = if s.rsp.start < s.par.n then
        .ok { s with
          rsp := { s.rsp with start := inc s.par s.rsp.start }
          history := s.history ++ [.tx (s.rsp.slotBytes s.par s.rsp.start)] }
      else .error (.noSuchSlot .rsp s.rsp.start) := by
  unfold sendHead slotRead
  by_cases h : s.rsp.start < s.par.n <;> simp [h, State.emit]

/-- The body of each command. -/
def bodyOf : Instr → State → Effect
  | .nop _ => nopBody
  | .pushReq => pushBody .req
  | .pushRsp => pushBody .rsp
  | .peekReq => peekBody
  | .rdslotReq => fun s => ifHeld s (rdslotBody s)
  | .wrslotReq => fun s => ifHeld s (wrslotBody s)
  | .relReq => fun s => ifHeld s (relBody s)
  | .statReq => statBody .req
  | .statRsp => statBody .rsp
  | .txdone => txdoneBody
  | .kick => kickBody
  | .setup => setupBody
  | .wait => waitBody

/-- Every meaning is the frame around its body. -/
theorem exec_eq_perform (i : Instr) (s : State) : exec i s = perform i (bodyOf i) s := by cases i <;> rfl

/-- Every way a command's body can end with a result: one constructor per outcome, with its condition. -/
inductive BodyDone : Instr → State → State → Result → Prop
  | nop (ch s) : BodyDone (.nop ch) s s (.bare .ok)
  | pushReqFull (s) : s.req.isFull s.par = true → BodyDone .pushReq s s (.bare .full)
  | pushReqOk (s) : s.req.isFull s.par = false → s.req.endIdx < s.par.n →
      BodyDone .pushReq s
        { s with req :=
          { s.req.storeSlot s.par s.req.endIdx s.bus.pktIn with endIdx := inc s.par s.req.endIdx } } (.bare .ok)
  | pushRspFull (s) : s.rsp.isFull s.par = true → BodyDone .pushRsp s s (.bare .full)
  | pushRspOk (s) : s.rsp.isFull s.par = false → s.rsp.endIdx < s.par.n →
      BodyDone .pushRsp s
        { s with rsp :=
          { s.rsp.storeSlot s.par s.rsp.endIdx s.bus.pktIn with endIdx := inc s.par s.rsp.endIdx } } (.bare .ok)
  | peekEmpty (s) : s.req.isEmpty = true → BodyDone .peekReq s s (.bare .empty)
  | peekOk (s) : s.req.isEmpty = false →
      BodyDone .peekReq s { s with reqHeld := true } { code := .ok, idxOut := some s.req.start }
  | rdslot (s) : s.reqHeld = true → s.bus.idxIn = s.req.start → s.req.start < s.par.n →
      BodyDone .rdslotReq s s { code := .ok, pktOut := some (s.req.slotBytes s.par s.req.start) }
  | wrslot (s) : s.reqHeld = true → s.bus.idxIn = s.req.start → s.req.start < s.par.n →
      BodyDone .wrslotReq s { s with req := s.req.storeSlot s.par s.req.start s.bus.pktIn } (.bare .ok)
  | rel (s) : s.reqHeld = true → s.bus.idxIn = s.req.start →
      BodyDone .relReq s { s with req := { s.req with start := inc s.par s.req.start }, reqHeld := false } (.bare .ok)
  | statReq (s) : BodyDone .statReq s s { code := .ok, statOut := some (status s .req) }
  | statRsp (s) : BodyDone .statRsp s s { code := .ok, statOut := some (status s .rsp) }
  | txdoneIdle (s) : s.busy = true → s.rsp.isEmpty = true → BodyDone .txdone s { s with busy := false } (.bare .idle)
  | txdoneOk (s) : s.busy = true → s.rsp.isEmpty = false → s.rsp.start < s.par.n →
      BodyDone .txdone s
        { s with
          rsp := { s.rsp with start := inc s.par s.rsp.start }
          history := s.history ++ [.tx (s.rsp.slotBytes s.par s.rsp.start)] } (.bare .ok)
  | kickBusy (s) : s.busy = true → BodyDone .kick s s (.bare .busy)
  | kickEmpty (s) : s.busy = false → s.rsp.isEmpty = true → BodyDone .kick s s (.bare .empty)
  | kickOk (s) : s.busy = false → s.rsp.isEmpty = false → s.rsp.start < s.par.n →
      BodyDone .kick s
        { s with
          rsp := { s.rsp with start := inc s.par s.rsp.start }
          busy := true
          history := s.history ++ [.tx (s.rsp.slotBytes s.par s.rsp.start)] } (.bare .ok)
  | setupQuiet (s) : s.bus.stallIn = 0b00#2 → BodyDone .setup s s (.bare .ok)
  | setupClear (s) : s.bus.stallIn ≠ 0b00#2 →
      BodyDone .setup s { s with history := s.history ++ [.ep0Clr s.bus.stallIn] } (.bare .ok)
  | waitSleep (s) : (s.req.isEmpty || s.rsp.isFull s.par) = true →
      BodyDone .wait s { s with fAsleep := true } (.bare .ok)
  | waitGo (s) : (s.req.isEmpty || s.rsp.isFull s.par) = false → BodyDone .wait s s (.bare .ok)

/-- A body that ends with a result ends in one of the listed ways. -/
theorem bodyDone_of {i : Instr} {s s' : State} {r : Result} (h : bodyOf i s = .done s' r) : BodyDone i s s' r := by
  cases i with
  | nop ch => cases h; exact .nop ch s
  | pushReq =>
    by_cases h1 : s.req.isFull s.par = true
    · rw [bodyOf, pushBody_full (ch := .req) h1] at h; cases h; exact .pushReqFull s h1
    · have h1 : s.req.isFull s.par = false := by simpa using h1
      by_cases h2 : s.req.endIdx < s.par.n
      · rw [bodyOf, pushBody_ok (ch := .req) h1 h2] at h; cases h; exact .pushReqOk s h1 h2
      · rw [bodyOf, pushBody_stop (ch := .req) h1 (not_lt.1 h2)] at h; cases h
  | pushRsp =>
    by_cases h1 : s.rsp.isFull s.par = true
    · rw [bodyOf, pushBody_full (ch := .rsp) h1] at h; cases h; exact .pushRspFull s h1
    · have h1 : s.rsp.isFull s.par = false := by simpa using h1
      by_cases h2 : s.rsp.endIdx < s.par.n
      · rw [bodyOf, pushBody_ok (ch := .rsp) h1 h2] at h; cases h; exact .pushRspOk s h1 h2
      · rw [bodyOf, pushBody_stop (ch := .rsp) h1 (not_lt.1 h2)] at h; cases h
  | peekReq =>
    simp only [bodyOf, peekBody] at h
    split_ifs at h with h1
    · cases h; exact .peekEmpty s h1
    · cases h; exact .peekOk s (by simpa using h1)
  | rdslotReq =>
    simp only [bodyOf, ifHeld, rdslotBody, slotRead, chan_req] at h
    split_ifs at h with h1 h2 h3
    cases h; exact .rdslot s (by simpa using h1) (not_not.1 h2) h3
  | wrslotReq =>
    simp only [bodyOf, ifHeld, wrslotBody, slotWrite, chan_req, setChan_req] at h
    split_ifs at h with h1 h2 h3
    cases h; exact .wrslot s (by simpa using h1) (not_not.1 h2) h3
  | relReq =>
    simp only [bodyOf, ifHeld, relBody] at h
    split_ifs at h with h1 h2
    cases h; exact .rel s (by simpa using h1) (not_not.1 h2)
  | statReq => cases h; exact .statReq s
  | statRsp => cases h; exact .statRsp s
  | txdone =>
    simp only [bodyOf, txdoneBody, sendHead, slotRead, chan_rsp] at h
    split_ifs at h with h1 h2 h3
    · cases h; exact .txdoneIdle s (by simpa using h1) h2
    · cases h; exact .txdoneOk s (by simpa using h1) (by simpa using h2) h3
  | kick =>
    simp only [bodyOf, kickBody, sendHead, slotRead, chan_rsp] at h
    split_ifs at h with h1 h2 h3
    · cases h; exact .kickBusy s h1
    · cases h; exact .kickEmpty s (by simpa using h1) h2
    · cases h; exact .kickOk s (by simpa using h1) (by simpa using h2) h3
  | setup =>
    simp only [bodyOf, setupBody] at h
    split_ifs at h with h1
    · cases h; exact .setupClear s h1
    · cases h; exact .setupQuiet s (not_not.1 h1)
  | wait =>
    simp only [bodyOf, waitBody] at h
    split_ifs at h with h1
    · cases h; exact .waitSleep s h1
    · cases h; exact .waitGo s (by simpa using h1)

/-- Each listed way is what the body does under its condition. -/
theorem body_of_bodyDone {i : Instr} {s s' : State} {r : Result} (h : BodyDone i s s' r) : bodyOf i s = .done s' r := by
  cases h <;>
    simp_all [bodyOf, nopBody, pushBody, peekBody, ifHeld, rdslotBody, wrslotBody, relBody, statBody, txdoneBody, kickBody,
      setupBody, waitBody, sendHead, slotRead, slotWrite, State.emit]

/-- A body that raises an error raises ERR_PROTO: RDSLOT, WRSLOT and REL without a held slot or with another index, TXDONE
with nothing outstanding (60_exceptions.md R191). -/
theorem bodyRaised_of {i : Instr} {s : State} {e : ResCode} (h : bodyOf i s = .raised e) :
    e = .errProto ∧ ((i = .txdone ∧ s.busy = false) ∨
      ((i = .rdslotReq ∨ i = .wrslotReq ∨ i = .relReq) ∧ (s.reqHeld = false ∨ s.bus.idxIn ≠ s.req.start))) := by
  cases i <;>
    simp only [bodyOf, nopBody, pushBody, peekBody, ifHeld, rdslotBody, wrslotBody, relBody, statBody, txdoneBody, kickBody,
      setupBody, waitBody, sendHead, slotRead, slotWrite] at h <;>
    (try split_ifs at h) <;> simp_all

/-- A body stops only at a slot that does not exist. -/
theorem bodyStop_of {i : Instr} {s : State} {f : Fault} (h : bodyOf i s = .stop f) :
    (i = .pushReq ∧ s.par.n ≤ s.req.endIdx) ∨ (i = .pushRsp ∧ s.par.n ≤ s.rsp.endIdx) ∨
      ((i = .rdslotReq ∨ i = .wrslotReq) ∧ s.par.n ≤ s.req.start) ∨ ((i = .txdone ∨ i = .kick) ∧ s.par.n ≤ s.rsp.start) := by
  cases i with
  | pushReq =>
    rcases hf : s.req.isFull s.par with - | -
    · refine .inl ⟨rfl, not_lt.1 fun he => ?_⟩
      rw [bodyOf, pushBody_ok (ch := .req) hf he] at h; cases h
    · rw [bodyOf, pushBody_full (ch := .req) hf] at h; cases h
  | pushRsp =>
    rcases hf : s.rsp.isFull s.par with - | -
    · refine .inr (.inl ⟨rfl, not_lt.1 fun he => ?_⟩)
      rw [bodyOf, pushBody_ok (ch := .rsp) hf he] at h; cases h
    · rw [bodyOf, pushBody_full (ch := .rsp) hf] at h; cases h
  | _ =>
    simp only [bodyOf, nopBody, peekBody, ifHeld, rdslotBody, wrslotBody, relBody, statBody, txdoneBody, kickBody,
      setupBody, waitBody, sendHead_eq, slotRead, slotWrite, chan_req] at h
    (try split_ifs at h) <;> simp_all

/-! ### A command as a whole -/

/-- No result of a body is an error. -/
theorem bodyDone_code {i : Instr} {s s' : State} {r : Result} (h : BodyDone i s s' r) : r.code.isError = false := by
  cases h <;> rfl

/-- What a body never touches: the parameters, the sticky bits, the buses, the result, the F agent and the inbox. -/
theorem bodyDone_frame {i : Instr} {s s' : State} {r : Result} (h : BodyDone i s s' r) :
    s'.par = s.par ∧ s'.tErr = s.tErr ∧ s'.fErr = s.fErr ∧ s'.bus = s.bus ∧ s'.result = s.result ∧ s'.loop = s.loop ∧
      s'.inbox = s.inbox := by
  cases h <;> exact ⟨rfl, rfl, rfl, rfl, rfl, rfl, rfl⟩

/-- INVERSION of `exec`: a next state is the command waiting, an error taken, or a body done and its frame ended. -/
theorem exec_inv {i : Instr} {s t : State} (h : exec i s = .next t) :
    (accepts s = false ∧ t = s) ∨
    (accepts s = true ∧ ∃ e, e.isError = true ∧ t = takeError (encode i) (operandsRead i s.bus) e s ∧
      ((legalPort i s.bus.port = false ∧ e = .errPort) ∨
        (legalPort i s.bus.port = true ∧ e = .errProto ∧ bodyOf i s = .raised .errProto))) ∨
    (accepts s = true ∧ legalPort i s.bus.port = true ∧
      ∃ s' r, BodyDone i s s' r ∧ t = conclude (encode i) (operandsRead i s.bus) r s') := by
  rw [exec_eq_perform] at h
  cases ha : accepts s with
  | false => rw [perform_waits ha] at h; cases h; exact .inl ⟨rfl, rfl⟩
  | true =>
    cases hp : legalPort i s.bus.port with
    | false =>
      rw [perform_wrongPort ha hp] at h
      cases h
      exact .inr (.inl ⟨rfl, .errPort, rfl, rfl, .inl ⟨rfl, rfl⟩⟩)
    | true =>
      cases hb : bodyOf i s with
      | done s' r =>
        rw [perform_done ha hp hb] at h; cases h
        exact .inr (.inr ⟨rfl, rfl, s', r, bodyDone_of hb, rfl⟩)
      | raised e =>
        rw [perform_raised ha hp hb] at h; cases h
        have he := (bodyRaised_of hb).1
        subst he
        exact .inr (.inl ⟨rfl, .errProto, rfl, rfl, .inr ⟨rfl, rfl, rfl⟩⟩)
      | stop f => rw [perform_stop ha hp hb] at h; cases h

/-- A command never answers a refusal. -/
theorem exec_not_refused (i : Instr) (s : State) (r : Refusal) : exec i s ≠ .refused r := by
  rw [exec_eq_perform]
  unfold perform
  split_ifs
  · split <;> simp
  · simp
  · simp

/-- A served command on a legal port whose body is done. -/
theorem exec_done {i : Instr} {s s' : State} {r : Result} (ha : s.bus.port = .f → s.fAsleep = false)
    (hp : legalPort i s.bus.port = true) (hb : BodyDone i s s' r) :
    exec i s = .next (conclude (encode i) (operandsRead i s.bus) r s') := by
  rw [exec_eq_perform]
  exact perform_done ((accepts_iff s).2 ha) hp (body_of_bodyDone hb)

end Sys2Proof.Machine
end

