-- ==== Sys2Proof/Laws/History.lean ====
section
/-! SUPPORT. What the history's readings say of a longer history: each is computed event by event (10_state.md R31). -/

namespace Sys2Proof.Machine

variable (h k : List Event) (pkt : Packet) (m : StallMask) (p : Port) (w : CmdWord) (o : Operands) (r : Result)

@[simp] theorem txPackets_nil : txPackets [] = [] := rfl
@[simp] theorem txPackets_append : txPackets (h ++ k) = txPackets h ++ txPackets k := by simp [txPackets]
@[simp] theorem txPackets_tx : txPackets (.tx pkt :: h) = pkt :: txPackets h := rfl
@[simp] theorem txPackets_ep0Clr : txPackets (.ep0Clr m :: h) = txPackets h := rfl
@[simp] theorem txPackets_cmd : txPackets (.cmd p w o r :: h) = txPackets h := rfl

section storedBy
variable (port : Port) (word : CmdWord)

@[simp] theorem storedBy_nil : storedBy port word [] = [] := rfl
@[simp] theorem storedBy_append : storedBy port word (h ++ k) = storedBy port word h ++ storedBy port word k := by
  simp [storedBy]
@[simp] theorem storedBy_tx : storedBy port word (.tx pkt :: h) = storedBy port word h := rfl
@[simp] theorem storedBy_ep0Clr : storedBy port word (.ep0Clr m :: h) = storedBy port word h := rfl
theorem storedBy_cmd :
    storedBy port word (.cmd p w o r :: h) =
      (if p = port ∧ w = word ∧ r.code = .ok then o.pkt.toList else []) ++ storedBy port word h := by
  unfold storedBy
  split_ifs with hc
  · cases ho : o.pkt <;> simp [hc, ho]
  · simp [hc]
end storedBy

section countCmd
variable (port : Port) (word : CmdWord) (ok : ResCode → Bool)

@[simp] theorem countCmd_nil : countCmd port word ok [] = 0 := rfl
@[simp] theorem countCmd_append :
    countCmd port word ok (h ++ k) = countCmd port word ok h + countCmd port word ok k := by
  simp [countCmd]
@[simp] theorem countCmd_tx : countCmd port word ok (.tx pkt :: h) = countCmd port word ok h := rfl
@[simp] theorem countCmd_ep0Clr : countCmd port word ok (.ep0Clr m :: h) = countCmd port word ok h := rfl
theorem countCmd_cmd :
    countCmd port word ok (.cmd p w o r :: h) =
      countCmd port word ok h + (p == port && w == word && ok r.code).toNat := by
  simp only [countCmd, List.countP_cons]
  rcases Bool.eq_false_or_eq_true (p == port && w == word && ok r.code) with hc | hc <;> simp [hc]
end countCmd

section errorOn
variable (port : Port)

@[simp] theorem errorOn_nil : errorOn port [] = false := rfl
@[simp] theorem errorOn_append : errorOn port (h ++ k) = (errorOn port h || errorOn port k) := by simp [errorOn]
@[simp] theorem errorOn_tx : errorOn port (.tx pkt :: h) = errorOn port h := rfl
@[simp] theorem errorOn_ep0Clr : errorOn port (.ep0Clr m :: h) = errorOn port h := rfl
@[simp] theorem errorOn_cmd :
    errorOn port (.cmd p w o r :: h) = (p == port && r.code.isError || errorOn port h) := by
  simp [errorOn]
end errorOn

end Sys2Proof.Machine
end

