-- ==== Sys2Proof/Laws/PerInstr.lean ====
section
/-! SUPPORT. The per-instruction family: every command's word has its reserved bits 0, its channel in bit 4 and its function
code in bits 3 to 0, and is a row of the legal table (30_encoding.md R71, R76). -/

namespace Sys2Proof.Laws.WordLayout

/-- The layout of one command's word. -/
def Statement (i : Instr) : Prop :=
  i.wf = true ∧ (encode i).extractLsb' 5 3 = 0b000#3 ∧ (encode i).extractLsb' 4 1 = i.chan.bit ∧
    (encode i).extractLsb' 0 4 = i.fn ∧ (encode i, i) ∈ legalTable

theorem nop (ch : Chan) : Statement (.nop ch) := by cases ch <;> (unfold Statement; decide)
theorem pushReq : Statement .pushReq := by unfold Statement; decide
theorem pushRsp : Statement .pushRsp := by unfold Statement; decide
theorem peekReq : Statement .peekReq := by unfold Statement; decide
theorem rdslotReq : Statement .rdslotReq := by unfold Statement; decide
theorem wrslotReq : Statement .wrslotReq := by unfold Statement; decide
theorem relReq : Statement .relReq := by unfold Statement; decide
theorem statReq : Statement .statReq := by unfold Statement; decide
theorem statRsp : Statement .statRsp := by unfold Statement; decide
theorem txdone : Statement .txdone := by unfold Statement; decide
theorem kick : Statement .kick := by unfold Statement; decide
theorem setup : Statement .setup := by unfold Statement; decide
theorem wait : Statement .wait := by unfold Statement; decide

end Sys2Proof.Laws.WordLayout
end

