-- ==== Sys2Proof/Laws/Step.lean ====
section
/-! SUPPORT. What a step can do, said once: which move is next, what serving a request does, and what each line of the F
agent's program does (60_exceptions.md R202; 42_command_loop.md R164). -/

namespace Sys2Proof.Machine

/-! ### Whose move it is -/

/-- The move taken from the inbox is enabled, and the inbox that stays holds nothing new. -/
theorem takeEnabled_some {asleep busy : Bool} {i : Input} :
    ∀ {l rest : List Input}, takeEnabled asleep busy l = some (i, rest) →
      enabledInput asleep busy i = true ∧ i ∈ l ∧ ∀ x ∈ rest, x ∈ l
  | [], _, h => by cases h
  | j :: l, rest, h => by
    unfold takeEnabled at h
    split_ifs at h with hj
    · cases h
      exact ⟨hj, List.mem_cons_self .., fun x hx => List.mem_cons_of_mem _ hx⟩
    · split at h
      · cases h
      · next left heq =>
        cases h
        obtain ⟨h1, h2, h3⟩ := takeEnabled_some heq
        exact ⟨h1, List.mem_cons_of_mem _ h2, fun x hx => List.mem_cons_of_mem _ (h3 x hx)⟩
      · next k left _ heq =>
        cases h
        obtain ⟨h1, h2, h3⟩ := takeEnabled_some heq
        refine ⟨h1, List.mem_cons_of_mem _ h2, fun x hx => ?_⟩
        rcases List.mem_cons.1 hx with rfl | hx
        · exact List.mem_cons_self ..
        · exact List.mem_cons_of_mem _ (h3 x hx)

/-- Inputs that are not enabled wait: the first enabled one behind them is taken, and they stay in their order. -/
theorem takeEnabled_skip {asleep busy : Bool} {waiting rest : List Input} {x : Input}
    (hw : ∀ y ∈ waiting, enabledInput asleep busy y = false) (hx : enabledInput asleep busy x = true) (hr : x ≠ .reset) :
    takeEnabled asleep busy (waiting ++ x :: rest) = some (x, waiting ++ rest) := by
  induction waiting with
  | nil => simp [takeEnabled, hx]
  | cons y l ih =>
    simp only [List.cons_append, takeEnabled, hw y (List.mem_cons_self ..),
      ih fun z hz => hw z (List.mem_cons_of_mem _ hz)]
    cases x <;> simp_all

/-- With no enabled input there is none to take. -/
theorem takeEnabled_none {asleep busy : Bool} {l : List Input} (hw : ∀ y ∈ l, enabledInput asleep busy y = false) :
    takeEnabled asleep busy l = none := by
  induction l with
  | nil => rfl
  | cons y l ih =>
    simp [takeEnabled, hw y (List.mem_cons_self ..), ih fun z hz => hw z (List.mem_cons_of_mem _ hz)]

/-- The next move is enabled. -/
theorem nextMove_enabled {s : State} {i : Input} {rest : List Input} (h : nextMove s = some (i, rest)) :
    enabledInput s.fAsleep s.busy i = true := by
  unfold nextMove at h
  split at h
  · next x heq => cases h; exact (takeEnabled_some heq).1
  · split_ifs at h with ha
    cases h
    simp [enabledInput, ha]

/-- The F agent moves only while it is awake. -/
theorem awake_of_foreground {s : State} {rest : List Input} (h : nextMove s = some (.foreground, rest)) :
    s.fAsleep = false := by
  simpa [enabledInput] using nextMove_enabled h

/-- A transmit-complete is a move only while a transmission is outstanding (60_exceptions.md R203). -/
theorem busy_of_transmitComplete {s : State} {rest : List Input}
    (h : nextMove s = some (.event .transmitComplete, rest)) : s.busy = true := nextMove_enabled h

/-- The inbox that stays holds nothing new. -/
theorem nextMove_rest {s : State} {i : Input} {rest : List Input} (h : nextMove s = some (i, rest)) :
    ∀ x ∈ rest, x ∈ s.inbox := by
  unfold nextMove at h
  split at h
  · next x heq => cases h; exact (takeEnabled_some heq).2.2
  · split_ifs at h
    cases h
    exact fun x hx => hx

/-- A command or an event that is next comes from the inbox. -/
theorem nextMove_mem {s : State} {i : Input} {rest : List Input} (h : nextMove s = some (i, rest)) :
    i ∈ s.inbox ∨ i = .foreground := by
  unfold nextMove at h
  split at h
  · next x heq => cases h; exact .inl (takeEnabled_some heq).2.1
  · split_ifs at h
    cases h
    exact .inr rfl

/-- An enabled input at the head of the inbox is the next move. -/
theorem nextMove_head {s : State} {i : Input} {rest : List Input} (h : s.inbox = i :: rest)
    (he : enabledInput s.fAsleep s.busy i = true) : nextMove s = some (i, rest) := by
  simp [nextMove, h, takeEnabled, he]

/-! ### Serving a request -/

@[simp] theorem latch_port (par : Params) (r : Request) : (Request.latch par r).port = r.port := rfl
@[simp] theorem latch_cmd (par : Params) (r : Request) : (Request.latch par r).cmd = r.cmd := rfl
@[simp] theorem latch_idxIn (par : Params) (r : Request) : (Request.latch par r).idxIn = r.idxIn % 2 ^ par.idxW := rfl
@[simp] theorem latch_pktIn (par : Params) (r : Request) : (Request.latch par r).pktIn = Packet.fit par.p r.pktIn := rfl
@[simp] theorem latch_stallIn (par : Params) (r : Request) : (Request.latch par r).stallIn = r.stallIn := rfl

/-- A request the buses can carry is latched as it is. -/
theorem latch_of_wf {par : Params} {r : Request} (h : r.wf par = true) : Request.latch par r = r := by
  simp only [Request.wf, idxWf, Packet.wf, Bool.and_eq_true, decide_eq_true_eq, beq_iff_eq] at h
  unfold Request.latch
  rw [Nat.mod_eq_of_lt h.1, fit_of_length h.2]

/-- INVERSION of `serve`: the command waits, is no command, or is performed. -/
theorem serve_inv {r : Request} {s t : State} (h : serve r s = .next t) :
    (∃ i, decode r.cmd = .legal i ∧ exec i { s with bus := Request.latch s.par r } = .next t) ∨
    (∃ why, decode r.cmd = .illegal why ∧
      ((accepts { s with bus := Request.latch s.par r } = false ∧ t = { s with bus := Request.latch s.par r }) ∨
       (accepts { s with bus := Request.latch s.par r } = true ∧
        t = takeError r.cmd {} .errIllegal { s with bus := Request.latch s.par r }))) := by
  unfold serve serveBus at h
  simp only [latch_cmd] at h
  cases hd : decode r.cmd with
  | legal i => rw [hd] at h; exact .inl ⟨i, rfl, h⟩
  | illegal why =>
    rw [hd] at h
    refine .inr ⟨why, rfl, ?_⟩
    simp only [performIllegal] at h
    split_ifs at h with ha
    · cases h; exact .inr ⟨ha, rfl⟩
    · cases h; exact .inl ⟨by simpa using ha, rfl⟩

/-- Decoding gives back the command of an encoded word, for the words the F agent issues. -/
theorem serve_encode {i : Instr} {p : Port} {idx : Nat} {pkt : Packet} {m : StallMask} {s : State}
    (hd : decode (encode i) = .legal i) :
    serve { port := p, cmd := encode i, idxIn := idx, pktIn := pkt, stallIn := m } s =
      exec i { s with bus := Request.latch s.par ⟨p, encode i, idx, pkt, m⟩ } := by
  unfold serve serveBus
  simp only [latch_cmd, hd]

/-! ### The step -/

/-- INVERSION of `step`: nothing to do, a reset, a request served, or a move of the F agent. -/
theorem step_inv {s t : State} (h : step s = .next t) :
    (nextMove s = none ∧ t = s) ∨
    (∃ rest, nextMove s = some (.reset, rest) ∧ t = { State.resetWith s.par with inbox := rest }) ∨
    (∃ r rest, (nextMove s = some (.command r, rest) ∨
        ∃ e, nextMove s = some (.event e, rest) ∧ r = eventRequest e) ∧
      serve r { s with inbox := rest } = .next t) ∨
    (∃ rest, nextMove s = some (.foreground, rest) ∧
      loopMove (Config.process s.par.p) { s with inbox := rest } = .next t) := by
  unfold step stepWith at h
  split at h
  · next i rest heq =>
    cases i with
    | command r => exact .inr (.inr (.inl ⟨r, rest, .inl heq, h⟩))
    | event e => exact .inr (.inr (.inl ⟨_, rest, .inr ⟨e, heq, rfl⟩, h⟩))
    | foreground => exact .inr (.inr (.inr ⟨rest, heq, h⟩))
    | reset => cases h; exact .inr (.inl ⟨rest, heq, rfl⟩)
  · next heq => cases h; exact .inl ⟨heq, rfl⟩

/-- What L1 does with PEEK's result. -/
theorem afterPeek_inv {u t : State} (h : afterPeek u = .next t) :
    (u.result.map Result.code = some .empty ∧ t = u.goto .l0) ∨
    ∃ i, u.result.bind Result.idxOut = some i ∧ t = { u with loop := { u.loop with label := .l2, idx := i } } := by
  unfold afterPeek at h
  split at h
  · next hr => cases h; exact .inl ⟨by rw [hr]; rfl, rfl⟩
  · next hr => cases h; exact .inr ⟨_, by rw [hr]; rfl, rfl⟩
  · cases h

/-- What L2 does with STAT's result. -/
theorem afterStat_inv {u t : State} (h : afterStat u = .next t) :
    ∃ w, u.result.bind Result.statOut = some w ∧ t = u.goto (if statusBit w 1 then .l0 else .l3) := by
  unfold afterStat at h
  split at h
  · next hr => cases h; exact ⟨_, by rw [hr]; rfl, rfl⟩
  · cases h

/-- What L3 does with RDSLOT's result. -/
theorem afterRdslot_inv {u t : State} (h : afterRdslot u = .next t) :
    ∃ pkt, u.result.bind Result.pktOut = some pkt ∧ t = { u with loop := { u.loop with label := .l4, q := pkt } } := by
  unfold afterRdslot at h
  split at h
  · next hr => cases h; exact ⟨_, by rw [hr]; rfl, rfl⟩
  · cases h

/-- INVERSION of a move of the F agent: a line of its own, or a command performed and the line's local effect. -/
theorem loopMove_inv {process : Packet → Packet} {s t : State} (h : loopMove process s = .next t) :
    (s.loop.label = .l4 ∧ t = { s with loop := { s.loop with label := .l5, r := Packet.fit s.par.p (process s.loop.q) } }) ∨
    (s.loop.label = .l8 ∧ t = s.goto .l0) ∨
    (∃ u, s.loop.label = .l0 ∧ issueF .wait 0 [] s = .next u ∧ t = u.goto .l1) ∨
    (∃ u, s.loop.label = .l1 ∧ issueF .peekReq 0 [] s = .next u ∧ afterPeek u = .next t) ∨
    (∃ u, s.loop.label = .l2 ∧ issueF .statRsp 0 [] s = .next u ∧ afterStat u = .next t) ∨
    (∃ u, s.loop.label = .l3 ∧ issueF .rdslotReq s.loop.idx [] s = .next u ∧ afterRdslot u = .next t) ∨
    (∃ u, s.loop.label = .l5 ∧ issueF .relReq s.loop.idx [] s = .next u ∧ t = u.goto .l6) ∨
    (∃ u, s.loop.label = .l6 ∧ issueF .pushRsp 0 s.loop.r s = .next u ∧ t = u.goto .l7) ∨
    (∃ u, s.loop.label = .l7 ∧ issueF .kick 0 [] s = .next u ∧ t = u.goto .l8) := by
  unfold loopMove at h
  cases hl : s.loop.label <;> simp only [hl] at h
  case l4 => cases h; exact .inl ⟨rfl, rfl⟩
  case l8 => cases h; exact .inr (.inl ⟨rfl, rfl⟩)
  all_goals
    unfold afterCommand at h
    split at h <;> simp_all

/-- A move of the F agent, seen from the block: only the F agent's own state changes, or one F-port request is served. -/
theorem loopMove_block {process : Packet → Packet} {s t : State} (h : loopMove process s = .next t) :
    (∃ l, t = { s with loop := l }) ∨ ∃ r u l, r.port = .f ∧ serve r s = .next u ∧ t = { u with loop := l } := by
  rcases loopMove_inv h with ⟨-, rfl⟩ | ⟨-, rfl⟩ | ⟨u, -, hu, rfl⟩ | ⟨u, -, hu, ht⟩ | ⟨u, -, hu, ht⟩ | ⟨u, -, hu, ht⟩ |
    ⟨u, -, hu, rfl⟩ | ⟨u, -, hu, rfl⟩ | ⟨u, -, hu, rfl⟩
  · exact .inl ⟨_, rfl⟩
  · exact .inl ⟨_, rfl⟩
  · exact .inr ⟨_, u, _, rfl, hu, rfl⟩
  · rcases afterPeek_inv ht with ⟨-, rfl⟩ | ⟨i, -, rfl⟩ <;> exact .inr ⟨_, u, _, rfl, hu, rfl⟩
  · obtain ⟨w, -, rfl⟩ := afterStat_inv ht
    exact .inr ⟨_, u, _, rfl, hu, rfl⟩
  · obtain ⟨pkt, -, rfl⟩ := afterRdslot_inv ht
    exact .inr ⟨_, u, _, rfl, hu, rfl⟩
  · exact .inr ⟨_, u, _, rfl, hu, rfl⟩
  · exact .inr ⟨_, u, _, rfl, hu, rfl⟩
  · exact .inr ⟨_, u, _, rfl, hu, rfl⟩

/-- A relation between a state and the next holds of a step when it holds of serving a request, of a reset and of doing
nothing, and does not look at the inbox of the first state or the F agent's own state. -/
theorem step_rel {P : State → State → Prop} {s t : State} (h : step s = .next t)
    (inbox : ∀ s t l, P { s with inbox := l } t → P s t) (loop : ∀ s t l, P s t → P s { t with loop := l })
    (reset : ∀ s l, P s { State.resetWith s.par with inbox := l })
    (served : ∀ r s t, serve r s = .next t → P s t) (still : ∀ s, P s s) : P s t := by
  rcases step_inv h with ⟨-, rfl⟩ | ⟨rest, -, rfl⟩ | ⟨r, rest, -, hs⟩ | ⟨rest, -, hl⟩
  · exact still _
  · exact reset _ _
  · exact inbox _ _ _ (served _ _ _ hs)
  · rcases loopMove_block hl with ⟨l, rfl⟩ | ⟨r, u, l, -, hu, rfl⟩
    · exact inbox _ _ rest (loop _ _ _ (still _))
    · exact inbox _ _ rest (loop _ _ _ (served _ _ _ hu))

/-- A step in which the F agent moves. -/
theorem step_foreground {s : State} {rest : List Input} (h : nextMove s = some (.foreground, rest)) :
    step s = loopMove (Config.process s.par.p) { s with inbox := rest } := by
  unfold step stepWith
  rw [h]
  rfl

/-- What the F agent's command does when its body is done. -/
theorem issueF_done {i : Instr} {idx : Nat} {pkt : Packet} {s s' : State} {r : Result} (ha : s.fAsleep = false)
    (hd : decode (encode i) = .legal i) (hp : legalPort i .f = true)
    (hb : BodyDone i { s with bus := Request.latch s.par ⟨.f, encode i, idx, pkt, 0b00#2⟩ } s' r) :
    issueF i idx pkt s =
      .next (conclude (encode i) (operandsRead i (Request.latch s.par ⟨.f, encode i, idx, pkt, 0b00#2⟩)) r s') := by
  unfold issueF
  rw [serve_encode hd]
  exact exec_done (fun _ => ha) hp hb

end Sys2Proof.Machine
end

