-- ==== Sys2Proof/Tests/Slice0.lean ====
section
/-! SUPPORT. The model's own tests: ill-formed terms refused, command words written out bit by bit, the spec's vectors
(95_test_vectors.md, by their numbers V1 to V54), and one witness for the hypotheses of each statement of Certificates. -/

namespace Sys2Proof.Tests

open Sys2Proof Sys2Proof.Machine

/-! ### Builders -/

def par4 : Params := { n := 4, p := 2 }
def par3 : Params := { n := 3, p := 2 }
def par2 : Params := { n := 2, p := 1 }

/-- The packets of the vectors. -/
def p1 : Packet := [0x11#8, 0x12#8]
def p2 : Packet := [0x21#8, 0x22#8]
def zeros : Packet := [0x00#8, 0x00#8]

/-- A channel with given indices, and a packet of two bytes in one slot. -/
def chanAt (start endIdx : Nat) : Channel := { slots := [], start := start, endIdx := endIdx }
def chanWith (start endIdx slot : Nat) (pkt : Packet) : Channel :=
  { slots := Memory.writeBytes [] (slot * 2) pkt, start := start, endIdx := endIdx }

/-- A request with the buses a test drives; the others carry zeros. -/
def onT (cmd : CmdWord) (pkt : Packet := zeros) (m : StallMask := 0b00#2) : Request := ⟨.t, cmd, 0, pkt, m⟩
def onF (cmd : CmdWord) (idx : Nat := 0) (pkt : Packet := zeros) : Request := ⟨.f, cmd, idx, pkt, 0b00#2⟩

/-- The state after reset, with `N = 4` and two-byte packets. -/
def s0 : State := State.resetWith par4

/-- One step; one step with one input to take. -/
def stepped (s : State) : Option State :=
  match step s with
  | .next t => some t
  | .fault _ => none
  | .refused _ => none

def next (s : State) (i : Input) : Option State := stepped { s with inbox := [i] }

/-- What a test looks at after one step. -/
def look {α : Type} (s : State) (r : Request) (f : State → α) : Option (Option ResCode × α) :=
  (next s (.command r)).map fun t => (t.result.map Result.code, f t)

/-! ### Well-formedness: what the checks refuse -/

theorem test_wf_packet_short : Packet.wf par4 [0x00#8] = false := by decide
theorem test_wf_packet_long : Packet.wf par4 [0x00#8, 0x00#8, 0x00#8] = false := by decide
theorem test_wf_packet : Packet.wf par4 p1 = true := by decide
/-- `IDX_W = 2` for `N = 3`: 3 may be driven, 4 may not (30_encoding.md R73; V15). -/
theorem test_wf_idx : idxWf par3 3 = true ∧ idxWf par3 4 = false := by decide
/-- `IDX_W = 1` for `N = 2`, and 8 for `N = 256` (00_scope.md R7). -/
theorem test_idxW : par2.idxW = 1 ∧ par4.idxW = 2 ∧ ({ n := 256, p := 1 } : Params).idxW = 8 := by decide
theorem test_wf_request_idx : Request.wf par4 (onF 0x05#8 4) = false := by decide
theorem test_wf_request_pkt : Request.wf par4 (onT 0x01#8 []) = false := by decide
theorem test_wf_request : Request.wf par4 (onF 0x04#8 3 p1) = true := by decide
theorem test_wf_event : UsbEvent.wf par4 (.receiveComplete []) = false ∧ UsbEvent.wf par4 (.receiveComplete p1) = true := by
  decide
theorem test_wf_input : Input.wf par4 (.command (onT 0x01#8 [])) = false ∧ Input.wf par4 (.event (.receiveComplete [])) = false := by
  decide
theorem test_wf_instr : Instr.wf (.nop .req) = true ∧ Instr.wf (.nop .rsp) = true ∧ Instr.wf .wait = true := by decide
/-- The canonical form refuses a blank cell, a repeated address and a falling one. -/
theorem test_wf_memory :
    Memory.wf [(0, 0x00#8)] = false ∧ Memory.wf [(1, 0x01#8), (1, 0x02#8)] = false ∧
      Memory.wf [(2, 0x01#8), (1, 0x02#8)] = false ∧ Memory.wf [(1, 0x01#8), (2, 0x02#8)] = true := by decide
/-- Writing the blank byte takes the cell away. -/
theorem test_memory_blank : Memory.write [(1, 0x01#8)] 1 0x00#8 = [] := by decide
theorem test_reset_memory : State.reset.req.slots.wf = true ∧ State.reset.rsp.slots.wf = true := by decide

/-! ### Decoding: every command's word, bit by bit (30_encoding.md R71, R76: reserved bits, CH, FN) -/

theorem test_decode_nop : decode 0b000_0_0000#8 = .legal (.nop .req) := by decide
theorem test_decode_nop_ch1 : decode 0b000_1_0000#8 = .legal (.nop .rsp) := by decide
theorem test_decode_pushReq : decode 0b000_0_0001#8 = .legal .pushReq := by decide
theorem test_decode_pushRsp : decode 0b000_1_0001#8 = .legal .pushRsp := by decide
theorem test_decode_peekReq : decode 0b000_0_0010#8 = .legal .peekReq := by decide
theorem test_decode_rdslotReq : decode 0b000_0_0011#8 = .legal .rdslotReq := by decide
theorem test_decode_wrslotReq : decode 0b000_0_0100#8 = .legal .wrslotReq := by decide
theorem test_decode_relReq : decode 0b000_0_0101#8 = .legal .relReq := by decide
theorem test_decode_statReq : decode 0b000_0_0110#8 = .legal .statReq := by decide
theorem test_decode_statRsp : decode 0b000_1_0110#8 = .legal .statRsp := by decide
theorem test_decode_txdone : decode 0b000_1_1000#8 = .legal .txdone := by decide
theorem test_decode_kick : decode 0b000_1_1001#8 = .legal .kick := by decide
theorem test_decode_setup : decode 0b000_0_1010#8 = .legal .setup := by decide
theorem test_decode_wait : decode 0b000_0_1011#8 = .legal .wait := by decide
/-- The 18 unassigned words of R76. -/
theorem test_decode_unassigned :
    [0x07#8, 0x08#8, 0x09#8, 0x0C#8, 0x0D#8, 0x0E#8, 0x0F#8, 0x12#8, 0x13#8, 0x14#8, 0x15#8, 0x17#8, 0x1A#8, 0x1B#8,
      0x1C#8, 0x1D#8, 0x1E#8, 0x1F#8].all (fun w => decide (decode w = .illegal .unassigned)) = true := by decide
theorem test_table_word : decodeTableWord 8 0x19 = some .kick ∧ decodeTableWord 8 0x07 = none ∧ decodeTableWord 8 0x119 = none := by
  decide

/-! ### Vectors (95_test_vectors.md, section 2) -/

theorem test_V25_nop_wakes : look { s0 with fAsleep := true } (onT 0x00#8) (·.fAsleep) = some (some .ok, false) := by decide
theorem test_V26_nop_ch1 : look s0 (onF 0x10#8) (fun t => (t.req, t.rsp)) = some (some .ok, s0.req, s0.rsp) := by decide
theorem test_V4_push_full :
    look { s0 with req := chanAt 2 1 } (onT 0x01#8 p1) (·.req) = some (some .full, chanAt 2 1) := by decide
/-- `N = 3`: `inc 2` is 0, not 3. -/
theorem test_V6_push_wraps :
    look { State.resetWith par3 with req := chanAt 1 2 } (onT 0x01#8 p1) (·.req) =
      some (some .ok, { slots := [(4, 0x11#8), (5, 0x12#8)], start := 1, endIdx := 0 }) := by decide
theorem test_V20_push_rsp :
    look s0 (onF 0x11#8 0 p1) (fun t => (t.rsp.endIdx, t.busy, txPackets t.history)) = some (some .ok, 1, false, []) := by
  decide
theorem test_V21_push_rsp_full :
    look { s0 with rsp := chanAt 1 0, busy := true } (onF 0x11#8 0 p1) (·.rsp) = some (some .full, chanAt 1 0) := by decide
theorem test_V9_peek_empty : look { s0 with req := chanAt 1 1 } (onF 0x02#8) (·.reqHeld) = some (some .empty, false) := by
  decide
theorem test_V10_peek :
    look { s0 with req := chanAt 3 1 } (onF 0x02#8) (fun t => (t.reqHeld, t.result.bind Result.idxOut)) =
      some (some .ok, true, some 3) := by decide
theorem test_V12_rdslot :
    look { s0 with req := chanWith 3 1 3 p1, reqHeld := true } (onF 0x03#8 3) (fun t => t.result.bind Result.pktOut) =
      some (some .ok, some p1) := by decide
theorem test_V14_rdslot_other_index :
    look { s0 with req := chanWith 3 1 3 p1, reqHeld := true } (onF 0x03#8 2) (·.fErr) = some (some .errProto, true) := by
  decide
theorem test_V16_wrslot :
    look { s0 with req := chanWith 3 1 3 p1, reqHeld := true } (onF 0x04#8 3 zeros) (·.req) =
      some (some .ok, chanAt 3 1) := by decide
theorem test_V19_wrslot_not_held :
    look { s0 with req := chanWith 3 1 3 p1 } (onF 0x04#8 3 zeros) (·.req) =
      some (some .errProto, chanWith 3 1 3 p1) := by decide
theorem test_V15_rel_index_n :
    look { State.resetWith par3 with req := chanAt 0 1, reqHeld := true } (onF 0x05#8 3) (fun t => (t.fErr, t.req, t.reqHeld)) =
      some (some .errProto, true, chanAt 0 1, true) := by decide
theorem test_V17_rel_wraps :
    look { s0 with req := chanAt 3 1, reqHeld := true } (onF 0x05#8 3) (fun t => (t.req, t.reqHeld)) =
      some (some .ok, chanAt 0 1, false) := by decide
theorem test_V24_stat_req :
    look { s0 with req := chanAt 0 1, reqHeld := true } (onF 0x06#8) (fun t => t.result.bind Result.statOut) =
      some (some .ok, some 0x01010008#32) := by decide
theorem test_V36_stat_req_errors :
    look { s0 with tErr := true, fErr := true } (onT 0x06#8) (fun t => t.result.bind Result.statOut) =
      some (some .ok, some 0x00000031#32) := by decide
theorem test_V22_stat_rsp :
    look { s0 with rsp := chanAt 1 3, busy := true } (onT 0x16#8) (fun t => t.result.bind Result.statOut) =
      some (some .ok, some 0x02030104#32) := by decide
theorem test_V23_stat_rsp_full :
    look { s0 with rsp := chanAt 2 1, busy := true } (onF 0x16#8) (fun t => t.result.bind Result.statOut) =
      some (some .ok, some 0x03010206#32) := by decide
theorem test_V42_txdone_idle :
    look { s0 with rsp := chanAt 0 1 } (onT 0x18#8) (fun t => (t.tErr, t.rsp, t.busy)) =
      some (some .errProto, true, chanAt 0 1, false) := by decide
theorem test_V43_txdone_wraps :
    look { s0 with rsp := chanWith 3 0 3 p1, busy := true } (onT 0x18#8) (fun t => (t.rsp.start, t.busy, txPackets t.history)) =
      some (some .ok, 0, true, [p1]) := by decide
theorem test_V39_kick_busy :
    look { s0 with rsp := chanAt 1 2, busy := true } (onF 0x19#8) (·.rsp) = some (some .busy, chanAt 1 2) := by decide
theorem test_V44_kick_wraps :
    look { s0 with rsp := chanWith 3 1 3 p1 } (onF 0x19#8) (fun t => (t.rsp.start, t.busy, txPackets t.history)) =
      some (some .ok, 0, true, [p1]) := by decide
theorem test_V46_setup :
    look s0 (onT 0x0A#8 zeros 0b11#2) (·.history) =
      some (some .ok, [.ep0Clr 0b11#2, .cmd .t 0x0A#8 { stall := some 0b11#2 } { code := .ok }]) := by decide
theorem test_V48_setup_on_f : look s0 (onF 0x0A#8) (·.fErr) = some (some .errPort, true) := by decide
theorem test_V50_wait_work : look { s0 with req := chanAt 0 1 } (onF 0x0B#8) (·.fAsleep) = some (some .ok, false) := by decide
theorem test_V51_wait_full_rsp :
    look { s0 with req := chanAt 0 1, rsp := chanAt 1 0, busy := true } (onF 0x0B#8) (·.fAsleep) =
      some (some .ok, true) := by decide
/-- Reserved bits first: the REL of `0xE5` is not performed. -/
theorem test_V33_reserved_bits :
    look { s0 with req := chanAt 0 1, reqHeld := true } (onF 0xE5#8) (fun t => (t.fErr, t.req, t.reqHeld)) =
      some (some .errIllegal, true, chanAt 0 1, true) := by decide
theorem test_V31_wrong_port_wakes :
    look { s0 with fAsleep := true } (onT 0x02#8) (fun t => (t.tErr, t.fAsleep)) = some (some .errPort, true, false) := by decide
/-- A receive-complete on a full REQ. -/
theorem test_V53_receive_complete :
    (next { s0 with req := chanAt 0 3, fAsleep := true } (.event (.receiveComplete p1))).map (fun t => (t.req, t.fAsleep)) =
      some (chanAt 0 3, false) := by decide
/-- While Idle a transmit-complete is no move of the environment (60_exceptions.md R203): the F side is next. -/
theorem test_transmit_complete_waits :
    (next { s0 with req := chanAt 0 1 } (.event .transmitComplete)).map (fun t => (t.loop.label, t.tErr, t.inbox)) =
      some (.l1, false, [.event .transmitComplete]) := by decide
/-- After reset the F side runs L0: WAIT sleeps (95_test_vectors.md PR1, step 1). -/
theorem test_PR1_first_step : (next s0 .foreground).map (fun t => (t.fAsleep, t.loop.label)) = some (true, .l1) := by decide
/-- The listing examples of 30_encoding.md R81. -/
theorem test_listing :
    assemble par4 ⟨.t, .push, some .req, [.packet (.named p1)]⟩ = some (onT 0x01#8 p1) ∧
      assemble par4 ⟨.f, .rel, some .req, [.index 2]⟩ = some (onF 0x05#8 2) ∧
      assemble par4 ⟨.t, .setup, none, [.mask 0b01#2]⟩ = some (onT 0x0A#8 zeros 0b01#2) ∧
      assemble par4 ⟨.f, .peek, some .rsp, []⟩ = none := by decide
theorem test_listing_seq : PacketText.bytes 3 (.seq 0xFF#8) = [0xFF#8, 0x00#8, 0x01#8] := by decide
/-- What the host asks of a placed word, for a row of each port. -/
theorem test_placed_word :
    ((stepped (State.reset.withFetchWord 8 0x01)).map fun t => t.req.endIdx) = some 1 ∧
      ((stepped (State.reset.withFetchWord 8 0x0B)).map fun t => t.fAsleep) = some true := by decide

/-! ### Witnesses: for each statement with hypotheses, states and operands that meet them, clause by clause -/

/-- The reset state with a request on the buses. -/
def busT (cmd : CmdWord) (pkt : Packet := p1) (m : StallMask := 0b00#2) : State := { s0 with bus := onT cmd pkt m }
def busF (cmd : CmdWord) (idx : Nat := 0) (pkt : Packet := p1) : State := { s0 with bus := onF cmd idx pkt }

theorem witness_EncodingAndDecodingAgree : decode 0x19#8 = .legal .kick := by decide

theorem witness_ResultsAreThoseOfTheCommand :
    ((busF 0x02#8).bus.port = .f → (busF 0x02#8).fAsleep = false) ∧ (∃ t, exec .peekReq (busF 0x02#8) = .next t) ∧
      (∃ t, exec .txdone { busT 0x18#8 with busy := true } = .next t) := ⟨fun _ => rfl, ⟨_, rfl⟩, ⟨_, rfl⟩⟩

theorem witness_UnreadBusesAreIgnored :
    (Instr.kick ≠ .rdslotReq ∧ Instr.kick ≠ .wrslotReq ∧ Instr.kick ≠ .relReq) ∧
      (Instr.setup ≠ .pushReq ∧ Instr.setup ≠ .pushRsp ∧ Instr.setup ≠ .wrslotReq) ∧ Instr.wait ≠ .setup := by decide

theorem witness_StepPerformsTheDecodedCommand :
    ∃ (s : State) (r : Request), s.inbox = .command r :: [] ∧ (r.port = .f → s.fAsleep = false) ∧ r.wf s.par = true ∧
      decode r.cmd = .legal .relReq :=
  ⟨{ s0 with inbox := [.command (onF 0x05#8 3)] }, onF 0x05#8 3, by decide⟩

theorem witness_IllegalWordReturnsErrIllegal :
    ∃ (s : State) (r : Request), s.inbox = .command r :: [] ∧ (r.port = .f → s.fAsleep = false) ∧ r.wf s.par = true ∧
      decode r.cmd = .illegal .reservedBits :=
  ⟨{ s0 with inbox := [.command (onT 0xFF#8)], fAsleep := true }, onT 0xFF#8, by decide⟩

theorem witness_WrongPortReturnsErrPort :
    (∃ s : State, legalPort .peekReq s.bus.port = false ∧ (s.bus.port = .f → s.fAsleep = false) ∧ s.fAsleep = true) ∧
      (∃ s : State, legalPort .txdone s.bus.port = false ∧ (s.bus.port = .f → s.fAsleep = false) ∧ s.bus.port = .f) :=
  ⟨⟨{ busT 0x02#8 with fAsleep := true }, by decide⟩, ⟨busF 0x18#8, by decide⟩⟩

theorem witness_UsbEventsAreTransportCommands :
    (∃ s : State, p1.length = s.par.p ∧ s.inbox = .event (.receiveComplete p1) :: []) ∧
      (∃ s : State, s.busy = true ∧ s.inbox = .event .transmitComplete :: []) ∧ (∃ s : State, s.inbox = .event (.setup 0b11#2) :: []) :=
  ⟨⟨{ s0 with inbox := [.event (.receiveComplete p1)] }, by decide⟩,
    ⟨{ s0 with busy := true, inbox := [.event .transmitComplete] }, by decide⟩, ⟨{ s0 with inbox := [.event (.setup 0b11#2)] }, by decide⟩⟩

theorem witness_TransmitCompleteOnlyWhileSending :
    (∃ s : State, nextMove s = some (.event .transmitComplete, []) ∧ s.rsp.start < s.par.n) ∧
      (∃ s : State, s.busy = false ∧ s.fAsleep = true ∧ s.inbox ≠ [] ∧ ∀ x ∈ s.inbox, x = .event .transmitComplete) ∧
      (∃ (s : State) (waiting : List Input) (r : Request), s.busy = false ∧ waiting ≠ [] ∧
        (∀ x ∈ waiting, x = .event .transmitComplete) ∧ s.inbox = waiting ++ .command r :: [] ∧
        (r.port = .f → s.fAsleep = false) ∧ r.wf s.par = true ∧ decode r.cmd = .legal .peekReq) :=
  ⟨⟨{ s0 with busy := true, rsp := chanWith 3 0 3 p1, inbox := [.event .transmitComplete] }, by decide⟩,
    ⟨{ s0 with fAsleep := true, inbox := [.event .transmitComplete] }, by decide⟩,
    ⟨{ s0 with inbox := [.event .transmitComplete, .command (onF 0x02#8)] }, [.event .transmitComplete], onF 0x02#8, by decide⟩⟩

theorem witness_PlacedWordRunsNext : decodeTableWord 8 0x10 = some (.nop .rsp) ∧ decodeTableWord 8 0x0B = some .wait := by decide

theorem witness_SuspendedSideWaits :
    (∃ s : State, s.bus.port = .f ∧ s.fAsleep = true) ∧
      (∃ s : State, s.fAsleep = true ∧ s.inbox ≠ [] ∧
        ∀ x ∈ s.inbox, x = .foreground ∨ ∃ r, x = .command r ∧ r.port = .f) ∧
      (∃ (s : State) (waiting : List Input) (r : Request), s.fAsleep = true ∧ waiting ≠ [] ∧
        (∀ x ∈ waiting, x = .foreground ∨ ∃ r, x = .command r ∧ r.port = .f) ∧ s.inbox = waiting ++ .command r :: [] ∧
        r.port = .t ∧ r.wf s.par = true ∧ decode r.cmd = .legal .txdone) := by
  have hw : ∀ x ∈ [Input.foreground, .command (onF 0x02#8)], x = .foreground ∨ ∃ r, x = .command r ∧ r.port = .f := by
    intro x hx
    rcases List.mem_cons.1 hx with rfl | hx
    · exact .inl rfl
    · rw [List.mem_singleton.1 hx]; exact .inr ⟨_, rfl, rfl⟩
  exact ⟨⟨{ busF 0x02#8 with fAsleep := true }, by decide⟩,
    ⟨{ s0 with fAsleep := true, inbox := [.foreground, .command (onF 0x02#8)] }, rfl, by decide, hw⟩,
    ⟨{ s0 with fAsleep := true, inbox := [.foreground, .command (onF 0x02#8), .command (onT 0x18#8)] },
      [.foreground, .command (onF 0x02#8)], onT 0x18#8, rfl, by decide, hw, rfl, by decide⟩⟩

theorem witness_ResetLeavesBothChannelsEmpty : (onF 0x02#8).port = .f := by decide

theorem witness_ResetIsOneStep : ({ s0 with busy := true, inbox := [.reset] } : State).inbox = .reset :: [] := by decide

theorem witness_NopOnlyAnswersOk : (busF 0x10#8).bus.port = .f → (busF 0x10#8).fAsleep = false := by decide

/-- Full with `end` at the last slot; free with `end` at the last slot. -/
theorem witness_PushReqStoresOrDrops :
    (∃ s : State, s.bus.port = .t ∧ (s.req.endIdx + 1) % s.par.n = s.req.start) ∧
      (∃ s : State, s.bus.port = .t ∧ s.bus.pktIn.length = s.par.p ∧ s.req.slots.wf = true ∧ s.req.endIdx < s.par.n ∧
        (s.req.endIdx + 1) % s.par.n ≠ s.req.start) :=
  ⟨⟨{ busT 0x01#8 with req := chanAt 0 3 }, by decide⟩, ⟨{ busT 0x01#8 with req := chanWith 1 3 1 p2 }, by decide⟩⟩

theorem witness_PushRspStoresOrDrops :
    (∃ s : State, s.bus.port = .f ∧ s.fAsleep = false ∧ (s.rsp.endIdx + 1) % s.par.n = s.rsp.start) ∧
      (∃ s : State, s.bus.port = .f ∧ s.fAsleep = false ∧ s.bus.pktIn.length = s.par.p ∧ s.rsp.slots.wf = true ∧
        s.rsp.endIdx < s.par.n ∧ (s.rsp.endIdx + 1) % s.par.n ≠ s.rsp.start) :=
  ⟨⟨{ busF 0x11#8 with rsp := chanAt 0 3 }, by decide⟩, ⟨{ busF 0x11#8 with rsp := chanWith 1 3 1 p2 }, by decide⟩⟩

theorem witness_PeekReqHoldsTheHead :
    (∃ s : State, s.bus.port = .f ∧ s.fAsleep = false ∧ s.req.start = s.req.endIdx) ∧
      (∃ s : State, s.bus.port = .f ∧ s.fAsleep = false ∧ s.req.start ≠ s.req.endIdx) :=
  ⟨⟨{ busF 0x02#8 with req := chanAt 3 3 }, by decide⟩, ⟨{ busF 0x02#8 with req := chanAt 3 0 }, by decide⟩⟩

/-- Not held; held with another index; held with the last slot's index. -/
theorem witness_RdslotReqReadsTheHeldSlot :
    (∃ s : State, s.bus.port = .f ∧ s.fAsleep = false ∧ s.reqHeld = false) ∧
      (∃ s : State, s.bus.port = .f ∧ s.fAsleep = false ∧ s.reqHeld = true ∧ s.bus.idxIn ≠ s.req.start) ∧
      (∃ s : State, s.bus.port = .f ∧ s.fAsleep = false ∧ s.reqHeld = true ∧ s.bus.idxIn = s.req.start ∧ s.req.start < s.par.n) :=
  ⟨⟨{ busF 0x03#8 3 with req := chanAt 3 0 }, by decide⟩, ⟨{ busF 0x03#8 0 with req := chanAt 3 0, reqHeld := true }, by decide⟩,
    ⟨{ busF 0x03#8 3 with req := chanWith 3 0 3 p2, reqHeld := true }, by decide⟩⟩

theorem witness_WrslotReqRewritesTheHeldSlot :
    (∃ s : State, s.bus.port = .f ∧ s.fAsleep = false ∧ s.reqHeld = false) ∧
      (∃ s : State, s.bus.port = .f ∧ s.fAsleep = false ∧ s.reqHeld = true ∧ s.bus.idxIn ≠ s.req.start) ∧
      (∃ s : State, s.bus.port = .f ∧ s.fAsleep = false ∧ s.reqHeld = true ∧ s.bus.idxIn = s.req.start ∧
        s.bus.pktIn.length = s.par.p ∧ s.req.slots.wf = true ∧ s.req.start < s.par.n) :=
  ⟨⟨{ busF 0x04#8 3 with req := chanAt 3 0 }, by decide⟩, ⟨{ busF 0x04#8 0 with req := chanAt 3 0, reqHeld := true }, by decide⟩,
    ⟨{ busF 0x04#8 3 with req := chanWith 3 0 3 p2, reqHeld := true }, by decide⟩⟩

theorem witness_RelReqReleasesTheHeldSlot :
    (∃ s : State, s.bus.port = .f ∧ s.fAsleep = false ∧ s.reqHeld = false) ∧
      (∃ s : State, s.bus.port = .f ∧ s.fAsleep = false ∧ s.reqHeld = true ∧ s.bus.idxIn ≠ s.req.start) ∧
      (∃ s : State, s.bus.port = .f ∧ s.fAsleep = false ∧ s.reqHeld = true ∧ s.bus.idxIn = s.req.start) :=
  ⟨⟨{ busF 0x05#8 3 with req := chanAt 3 0 }, by decide⟩, ⟨{ busF 0x05#8 0 with req := chanAt 3 0, reqHeld := true }, by decide⟩,
    ⟨{ busF 0x05#8 3 with req := chanWith 3 0 3 p2, reqHeld := true }, by decide⟩⟩

theorem witness_StatReqReturnsTheStatusWord :
    ∃ s : State, (s.bus.port = .f → s.fAsleep = false) ∧ s.req.start < s.par.n ∧ s.req.endIdx < s.par.n :=
  ⟨{ busT 0x06#8 with req := chanAt 3 0 }, by decide⟩

theorem witness_StatRspReturnsTheStatusWord :
    ∃ s : State, (s.bus.port = .f → s.fAsleep = false) ∧ s.rsp.start < s.par.n ∧ s.rsp.endIdx < s.par.n :=
  ⟨{ busF 0x16#8 with rsp := chanAt 3 0 }, by decide⟩

theorem witness_TxdoneSendsOrGoesIdle :
    (∃ s : State, s.bus.port = .t ∧ s.busy = false) ∧
      (∃ s : State, s.bus.port = .t ∧ s.busy = true ∧ s.rsp.start = s.rsp.endIdx) ∧
      (∃ s : State, s.bus.port = .t ∧ s.busy = true ∧ s.rsp.start ≠ s.rsp.endIdx ∧ s.rsp.start < s.par.n) :=
  ⟨⟨busT 0x18#8, by decide⟩, ⟨{ busT 0x18#8 with rsp := chanAt 3 3, busy := true }, by decide⟩,
    ⟨{ busT 0x18#8 with rsp := chanWith 3 0 3 p2, busy := true }, by decide⟩⟩

theorem witness_KickSendsWhenIdle :
    (∃ s : State, s.bus.port = .f ∧ s.fAsleep = false ∧ s.busy = true) ∧
      (∃ s : State, s.bus.port = .f ∧ s.fAsleep = false ∧ s.busy = false ∧ s.rsp.start = s.rsp.endIdx) ∧
      (∃ s : State, s.bus.port = .f ∧ s.fAsleep = false ∧ s.busy = false ∧ s.rsp.start ≠ s.rsp.endIdx ∧
        s.rsp.start < s.par.n) :=
  ⟨⟨{ busF 0x19#8 with busy := true }, by decide⟩, ⟨{ busF 0x19#8 with rsp := chanAt 3 3 }, by decide⟩,
    ⟨{ busF 0x19#8 with rsp := chanWith 3 0 3 p2 }, by decide⟩⟩

theorem witness_SetupRelaysTheStallFlags :
    (∃ s : State, s.bus.port = .t ∧ s.bus.stallIn = 0b00#2) ∧ (∃ s : State, s.bus.port = .t ∧ s.bus.stallIn ≠ 0b00#2) :=
  ⟨⟨busT 0x0A#8, by decide⟩, ⟨busT 0x0A#8 p1 0b10#2, by decide⟩⟩

/-- A WAIT on the port, and steps that suspend: a WAIT from outside, and the F agent's at L0. -/
theorem witness_WaitSuspendsWithoutWork :
    (∃ s : State, s.bus.port = .f ∧ s.fAsleep = false) ∧
      (∃ t, step { s0 with inbox := [.command (onF 0x0B#8)] } = .next t ∧ s0.fAsleep = false ∧ t.fAsleep = true) ∧
      (∃ t, step s0 = .next t ∧ s0.fAsleep = false ∧ t.fAsleep = true) :=
  ⟨⟨busF 0x0B#8, by decide⟩, ⟨_, rfl, by decide, by decide⟩, ⟨_, rfl, by decide, by decide⟩⟩

/-- Indices one beyond the last slot. -/
theorem witness_MissingSlotStopsTheMachine :
    (∃ s : State, s.bus.port = .t ∧ s.par.n ≤ s.req.endIdx ∧ (s.req.endIdx + 1) % s.par.n ≠ s.req.start) ∧
      (∃ s : State, s.bus.port = .f ∧ s.fAsleep = false ∧ s.par.n ≤ s.rsp.endIdx ∧
        (s.rsp.endIdx + 1) % s.par.n ≠ s.rsp.start) ∧
      (∃ s : State, s.bus.port = .f ∧ s.fAsleep = false ∧ s.reqHeld = true ∧ s.bus.idxIn = s.req.start ∧
        s.par.n ≤ s.req.start) ∧
      (∃ s : State, s.bus.port = .t ∧ s.busy = true ∧ s.rsp.start ≠ s.rsp.endIdx ∧ s.par.n ≤ s.rsp.start) ∧
      (∃ s : State, s.bus.port = .f ∧ s.fAsleep = false ∧ s.busy = false ∧ s.rsp.start ≠ s.rsp.endIdx ∧
        s.par.n ≤ s.rsp.start) :=
  ⟨⟨{ busT 0x01#8 with req := chanAt 0 4 }, by decide⟩, ⟨{ busF 0x11#8 with rsp := chanAt 0 4 }, by decide⟩,
    ⟨{ busF 0x03#8 4 with req := chanAt 4 0, reqHeld := true }, by decide⟩,
    ⟨{ busT 0x18#8 with rsp := chanAt 4 0, busy := true }, by decide⟩, ⟨{ busF 0x19#8 with rsp := chanAt 4 0 }, by decide⟩⟩

/-- Each index moved by its one writer, and from the last slot. -/
theorem witness_EachIndexHasItsOneWriter :
    (∃ t, exec .pushReq { busT 0x01#8 with req := chanAt 1 3 } = .next t ∧ t.req.endIdx ≠ 3) ∧
      (∃ t, exec .relReq { busF 0x05#8 3 with req := chanAt 3 0, reqHeld := true } = .next t ∧ t.req.start ≠ 3) ∧
      (∃ t, exec .pushRsp { busF 0x11#8 with rsp := chanAt 1 3 } = .next t ∧ t.rsp.endIdx ≠ 3) ∧
      (∃ t, exec .kick { busF 0x19#8 with rsp := chanAt 3 0 } = .next t ∧ t.rsp.start ≠ 3) ∧
      (∃ t, exec .txdone { busT 0x18#8 with rsp := chanAt 3 0, busy := true } = .next t ∧ t.rsp.start ≠ 3) :=
  ⟨⟨_, rfl, by decide⟩, ⟨_, rfl, by decide⟩, ⟨_, rfl, by decide⟩, ⟨_, rfl, by decide⟩, ⟨_, rfl, by decide⟩⟩

/-- The last byte of the last slot, by each of the three writers. -/
theorem witness_SlotsAreWrittenOnlyThroughTheMultiplexer :
    (∃ t, exec .pushReq { busT 0x01#8 with req := chanAt 1 3 } = .next t ∧ t.req.slots.read 7 ≠ (chanAt 1 3).slots.read 7) ∧
      (∃ t, exec .wrslotReq { busF 0x04#8 3 with req := chanAt 3 0, reqHeld := true } = .next t ∧
        t.req.slots.read 7 ≠ (chanAt 3 0).slots.read 7) ∧
      (∃ t, exec .pushRsp { busF 0x11#8 with rsp := chanAt 1 3 } = .next t ∧
        t.rsp.slots.read 7 ≠ (chanAt 1 3).slots.read 7) :=
  ⟨⟨_, rfl, by decide⟩, ⟨_, rfl, by decide⟩, ⟨_, rfl, by decide⟩⟩

theorem witness_EventsComeOnlyFromTheirCommands :
    ((busT 0x0A#8 p1 0b01#2).bus.port = .f → (busT 0x0A#8 p1 0b01#2).fAsleep = false) ∧
      (∃ t, exec .setup (busT 0x0A#8 p1 0b01#2) = .next t ∧ t.history.length = 2) ∧
      (∃ t, exec .kick { busF 0x19#8 with rsp := chanAt 3 0 } = .next t ∧ t.history.length = 2) :=
  ⟨by decide, ⟨_, rfl, by decide⟩, ⟨_, rfl, by decide⟩⟩

/-- A step that is no reset, from a state with a history. -/
theorem witness_HistoryIsOnlyAppendedTo :
    (∃ t, step { s0 with history := [.tx p1], inbox := [.command (onT 0x00#8)] } = .next t) ∧
      ∀ rest, nextMove { s0 with history := [.tx p1], inbox := [.command (onT 0x00#8)] } ≠ some (.reset, rest) :=
  ⟨⟨_, rfl⟩, fun _ h => by cases h⟩

theorem witness_StickyBitsClearOnlyByReset :
    (∃ t r, exec .txdone (busT 0x18#8) = .next t ∧ t.result = some r ∧ r.code.isError = true) ∧
      (∃ t, step { s0 with tErr := true, fErr := true, inbox := [.command (onT 0x00#8)] } = .next t) ∧
      ∀ rest, nextMove { s0 with tErr := true, fErr := true, inbox := [.command (onT 0x00#8)] } ≠ some (.reset, rest) :=
  ⟨⟨_, _, rfl, rfl, rfl⟩, ⟨_, rfl⟩, fun _ h => by cases h⟩

theorem witness_OnlyTransportCommandsAndResetWake :
    (nextMove { s0 with fAsleep := true, inbox := [.command (onT 0x20#8)] } = some (.command (onT 0x20#8), []) ∧
      ∃ t, step { s0 with fAsleep := true, inbox := [.command (onT 0x20#8)] } = .next t ∧ t.fAsleep = false) ∧
      (nextMove { s0 with fAsleep := true, busy := true, inbox := [.event .transmitComplete] } = some (.event .transmitComplete, []) ∧
        ∃ t, step { s0 with fAsleep := true, busy := true, inbox := [.event .transmitComplete] } = .next t ∧ t.fAsleep = false) ∧
      (∃ t, step { s0 with fAsleep := true, inbox := [.reset] } = .next t ∧ t.fAsleep = false) :=
  ⟨⟨rfl, _, rfl, by decide⟩, ⟨rfl, _, rfl, by decide⟩, ⟨_, rfl, by decide⟩⟩

theorem witness_BusyAndHeldChangeOnlyByTheirCommands :
    (∃ t, exec .kick { busF 0x19#8 with rsp := chanAt 3 0 } = .next t ∧ t.busy ≠ false) ∧
      (∃ t, exec .txdone { busT 0x18#8 with busy := true } = .next t ∧ t.busy ≠ true) ∧
      (∃ t, exec .peekReq { busF 0x02#8 with req := chanAt 3 0 } = .next t ∧ t.reqHeld ≠ false) ∧
      (∃ t, exec .relReq { busF 0x05#8 3 with req := chanAt 3 0, reqHeld := true } = .next t ∧ t.reqHeld ≠ true) :=
  ⟨⟨_, rfl, by decide⟩, ⟨_, rfl, by decide⟩, ⟨_, rfl, by decide⟩, ⟨_, rfl, by decide⟩⟩

theorem witness_ParametersNeverChange : ∃ t, step { s0 with inbox := [.reset] } = .next t := ⟨_, rfl⟩

/-- A wrapped full channel of the largest block, and an empty one of the smallest. -/
theorem witness_FlagsFollowTheFillCount :
    (∃ (par : Params) (c : Channel), c.start < par.n ∧ c.endIdx < par.n ∧ c.isFull par = true) ∧
      (∃ (par : Params) (c : Channel), c.start < par.n ∧ c.endIdx < par.n ∧ c.isEmpty = true) :=
  ⟨⟨{ n := 256, p := 1 }, chanAt 255 254, by decide⟩, ⟨par2, chanAt 1 1, by decide⟩⟩

theorem witness_SlotEndIsAlwaysFree :
    ((chanAt 3 2).start < par4.n ∧ (chanAt 3 2).endIdx < par4.n ∧ 2 < (chanAt 3 2).fill par4 ∧
      (chanAt 3 2).isEmpty = false) := by decide

/-- A good state with a held request in the last slot, a response waiting and a transmission outstanding. -/
def busyState : State :=
  { s0 with
    req := chanWith 3 0 3 p1, rsp := chanWith 1 2 1 p2, busy := true, reqHeld := true
    history := [.cmd .f 0x11#8 { pkt := some p1 } { code := .ok }, .tx p1, .cmd .f 0x19#8 {} { code := .ok }
      , .cmd .f 0x11#8 { pkt := some p2 } { code := .ok }]
    inbox := [.event .transmitComplete] }

theorem witness_StepKeepsGoodStates : busyState.Good ∧ ∃ t, step busyState = .next t := ⟨by decide, _, rfl⟩

theorem witness_GoodStatesReachNoMissingSlot : busyState.Good := by decide

theorem witness_BusyCountsTheOutstandingTransmission :
    (txPackets busyState.history).length = txdonesAnswered busyState.history + busyState.busy.toNat ∧
      ∃ t, step busyState = .next t := ⟨by decide, _, rfl⟩

theorem witness_StickyBitsRecordTheErrors :
    busyState.tErr = errorOn .t busyState.history ∧ busyState.fErr = errorOn .f busyState.history ∧
      ∃ t, step busyState = .next t := ⟨by decide, by decide, _, rfl⟩

theorem witness_ResponsesLeaveInTheOrderStored :
    busyState.Good ∧ storedRsp busyState.history = txPackets busyState.history ++ busyState.rsp.contents busyState.par ∧
      ∃ t, step busyState = .next t := ⟨by decide, by decide, _, rfl⟩

theorem witness_ChannelsBehaveAsQueues :
    (∃ s t r, State.Good s ∧ (s.bus.port = .f → s.fAsleep = false) ∧ s.bus.pktIn.length = s.par.p ∧
      exec .txdone s = .next t ∧ t.result = some r ∧ r.code = .ok) ∧
      (∃ s t r, State.Good s ∧ (s.bus.port = .f → s.fAsleep = false) ∧ s.bus.pktIn.length = s.par.p ∧
        exec .rdslotReq s = .next t ∧ t.result = some r ∧ r.code = .ok) ∧
      (∃ s t r, State.Good s ∧ (s.bus.port = .f → s.fAsleep = false) ∧ s.bus.pktIn.length = s.par.p ∧
        exec .pushReq s = .next t ∧ t.result = some r ∧ r.code = .full) :=
  ⟨⟨{ busyState with bus := onT 0x18#8 p1 }, _, _, by decide, by decide, by decide, rfl, rfl, rfl⟩,
    ⟨{ busyState with bus := onF 0x03#8 3 p1 }, _, _, by decide, by decide, by decide, rfl, rfl, rfl⟩,
    ⟨{ busT 0x01#8 with req := chanAt 0 3 }, _, _, by decide, by decide, by decide, rfl, rfl, rfl⟩⟩

/-- Two states that differ in a free slot of each channel. -/
theorem witness_FreeSlotsAreNeverObserved :
    busyState.Good ∧ { busyState with rsp := { chanWith 1 2 1 p2 with slots := [(2, 0x21#8), (3, 0x22#8), (7, 0x55#8)] } }.Good ∧
      AgreeOnFilled busyState
        { busyState with rsp := { chanWith 1 2 1 p2 with slots := [(2, 0x21#8), (3, 0x22#8), (7, 0x55#8)] } } ∧
      ∃ t, step busyState = .next t := ⟨by decide, by decide, ⟨by decide, by decide, by decide⟩, _, rfl⟩

/-- The F agent's own move at a label, with a held request. -/
def atLabel (l : Label) : State :=
  { busyState with inbox := [], loop := { label := l, idx := 3, q := p1, r := p2 } }

theorem witness_CommandLoopWaitsAndPeeks :
    (nextMove (atLabel .l0) = some (.foreground, []) ∧ (atLabel .l0).loop.label = .l0) ∧
      (nextMove { s0 with loop := { s0.loop with label := .l1 } } = some (.foreground, []) ∧ s0.req.isEmpty = true) ∧
      (nextMove (atLabel .l1) = some (.foreground, []) ∧ (atLabel .l1).req.isEmpty = false) ∧
      (nextMove (atLabel .l2) = some (.foreground, []) ∧ (atLabel .l2).loop.label = .l2) := by decide

theorem witness_CommandLoopReadsProcessesAndReleases :
    (nextMove (atLabel .l3) = some (.foreground, []) ∧ (atLabel .l3).loop.label = .l3 ∧ (atLabel .l3).reqHeld = true ∧
      (atLabel .l3).loop.idx = (atLabel .l3).req.start ∧ (atLabel .l3).req.start < (atLabel .l3).par.n) ∧
      (nextMove (atLabel .l4) = some (.foreground, []) ∧ (atLabel .l4).loop.label = .l4) ∧
      (nextMove (atLabel .l5) = some (.foreground, []) ∧ (atLabel .l5).loop.label = .l5) := by decide

theorem witness_CommandLoopEnqueuesAndKicks :
    (nextMove (atLabel .l6) = some (.foreground, []) ∧ (atLabel .l6).loop.label = .l6 ∧
      (atLabel .l6).rsp.isFull (atLabel .l6).par = false ∧ (atLabel .l6).rsp.endIdx < (atLabel .l6).par.n ∧
      (atLabel .l6).loop.r.length = (atLabel .l6).par.p) ∧
      (nextMove (atLabel .l7) = some (.foreground, []) ∧ (atLabel .l7).loop.label = .l7 ∧
        (atLabel .l7).rsp.start < (atLabel .l7).par.n) ∧
      (nextMove (atLabel .l8) = some (.foreground, []) ∧ (atLabel .l8).loop.label = .l8) := by decide

/-- The loop's invariant with a response in hand. -/
theorem loopInv_atLabel6 : (atLabel .l6).LoopInv :=
  ⟨by decide, fun _ h => absurd h List.not_mem_nil, ⟨by decide, by decide⟩, by decide⟩

theorem witness_StepKeepsTheCommandLoopInvariant : (atLabel .l6).LoopInv ∧ ∃ t, step (atLabel .l6) = .next t :=
  ⟨loopInv_atLabel6, _, rfl⟩

theorem witness_CommandLoopNeverDropsAResponse :
    (atLabel .l6).LoopInv ∧ (atLabel .l6).loop.label = .l6 ∧ nextMove (atLabel .l6) = some (.foreground, []) :=
  ⟨loopInv_atLabel6, rfl, rfl⟩

theorem witness_CommandLoopNeverStops :
    (∃ s : State, s.LoopInv) ∧ (∃ s : State, s.LoopInv ∧ s.inbox ≠ [] ∧ ∀ i ∈ s.inbox, contractInput i = true) :=
  ⟨⟨_, loopInv_atLabel6⟩, { atLabel .l6 with inbox := [.event .transmitComplete] },
    ⟨loopInv_atLabel6.1, fun _ h => by rw [List.mem_singleton.1 h]; rfl, loopInv_atLabel6.2.2⟩, by decide, by decide⟩

/-- One request stored and released, its response in hand at L6, and a second request stored. -/
def pairedState : State :=
  { s0 with
    req := chanWith 1 2 1 p2
    history := [.cmd .t 0x01#8 { pkt := some p1 } { code := .ok }, .cmd .t 0x01#8 { pkt := some p2 } { code := .ok }
      , .cmd .f 0x05#8 { idx := some 0 } { code := .ok }]
    loop := { label := .l6, idx := 0, q := p1, r := respond par4 p1 } }

theorem pairInv_pairedState : pairedState.PairInv :=
  ⟨⟨by decide, fun _ h => absurd h List.not_mem_nil, ⟨by decide, fit_length _ _⟩, by decide⟩, by decide, by decide, rfl, by decide⟩

theorem witness_StepKeepsRequestsAndResponsesPaired : pairedState.PairInv ∧ ∃ t, step pairedState = .next t :=
  ⟨pairInv_pairedState, _, rfl⟩

theorem witness_TransmissionsAnswerRequestsInOrder : pairedState.PairInv ∧ ∃ t, step pairedState = .next t :=
  ⟨pairInv_pairedState, _, rfl⟩

theorem witness_HostWithinCapacityCausesNoOverrun :
    ∃ s : State, s.PairInv ∧ s.inbox = .event (.receiveComplete p1) :: [] ∧ p1.length = s.par.p ∧
      (storedReq s.history).length < (txPackets s.history).length + (s.par.n - 1) :=
  ⟨{ pairedState with inbox := [.event (.receiveComplete p1)] },
    ⟨⟨by decide, fun _ h => by rw [List.mem_singleton.1 h]; rfl, pairInv_pairedState.1.2.2⟩, pairInv_pairedState.2⟩,
    by decide⟩

theorem witness_TransmitCompletesDrainResponses :
    { busyState with inbox := List.replicate 2 (.event .transmitComplete) }.Good ∧ busyState.busy = true ∧
      { busyState with inbox := List.replicate 2 (.event .transmitComplete) }.inbox =
        List.replicate (busyState.rsp.fill busyState.par + 1) (.event .transmitComplete) ++ [] := by decide

/-- While Sending, and Idle. -/
theorem witness_CommandLoopAnswersARequestInEightSteps :
    (∃ s : State, s.LoopInv ∧ s.loop.label = .l1 ∧ s.fAsleep = false ∧ s.inbox = [] ∧ s.req.isEmpty = false ∧
      s.rsp.isFull s.par = false ∧ s.busy = true) ∧
      (∃ s : State, s.LoopInv ∧ s.loop.label = .l1 ∧ s.fAsleep = false ∧ s.inbox = [] ∧ s.req.isEmpty = false ∧
        s.rsp.isFull s.par = false ∧ s.busy = false) :=
  ⟨⟨atLabel .l1, ⟨by decide, fun _ h => absurd h List.not_mem_nil, trivial, by decide⟩, by decide⟩,
    ⟨{ atLabel .l1 with rsp := chanAt 3 3, busy := false },
      ⟨by decide, fun _ h => absurd h List.not_mem_nil, trivial, by decide⟩, by decide⟩⟩

theorem witness_WokenWithoutWorkSleepsAgain :
    { s0 with loop := { s0.loop with label := .l1 } }.loop.label = .l1 ∧ s0.fAsleep = false ∧ s0.inbox = [] ∧
      s0.req.isEmpty = true := by decide

theorem witness_PseudoInstructionsAreTheirExpansions : s0.par = par4 := by decide

end Sys2Proof.Tests
end

section
/-! The parameters are constant (00_scope.md R7): every command keeps them, so serving a request and a step do. -/

namespace Sys2Proof.Machine

@[simp] theorem takeError_par (w : CmdWord) (ops : Operands) (e : ResCode) (s : State) :
    (takeError w ops e s).par = s.par := by
  simp [takeError]

theorem exec_par {i : Instr} {s t : State} (h : exec i s = .next t) : t.par = s.par := by
  obtain ⟨-, rfl⟩ | ⟨-, e, -, rfl, -⟩ | ⟨-, -, s', r, hbody, rfl⟩ := exec_inv h
  · rfl
  · exact takeError_par ..
  · obtain ⟨hpar, -⟩ := bodyDone_frame hbody
    exact hpar

theorem serve_par {r : Request} {s t : State} (h : serve r s = .next t) : t.par = s.par := by
  obtain ⟨i, -, hexec⟩ | ⟨_, -, ⟨-, rfl⟩ | ⟨-, rfl⟩⟩ := serve_inv h
  · have hpar := exec_par hexec
    exact hpar
  · rfl
  · exact takeError_par ..

/-- Settles O36: a step serves at most one request, and a reset keeps the parameters it resets with. -/
theorem parametersNeverChange : Obligations.ParametersNeverChange := by
  intro s t h
  refine step_rel (P := fun s t => t.par = s.par) h ?inbox ?loop ?reset ?served ?still
  case inbox => exact fun _ _ _ hpar => hpar
  case loop => exact fun _ _ _ hpar => hpar
  case reset => exact fun _ _ => rfl
  case served => exact fun _ _ _ => serve_par
  case still => exact fun _ => rfl

end Sys2Proof.Machine
end

section
/-! What one served command does to the block, whatever brought it, and what a step does in those terms (10_state.md R22;
40_ring_channel.md R101; 60_exceptions.md R202). The proofs about 10_state.md case on `Served`. -/

namespace Sys2Proof.Machine

section takeError
variable (w : CmdWord) (ops : Operands) (e : ResCode) (s : State)

@[simp] theorem takeError_req : (takeError w ops e s).req = s.req := by simp [takeError]
@[simp] theorem takeError_rsp : (takeError w ops e s).rsp = s.rsp := by simp [takeError]
@[simp] theorem takeError_busy : (takeError w ops e s).busy = s.busy := by simp [takeError]
@[simp] theorem takeError_reqHeld : (takeError w ops e s).reqHeld = s.reqHeld := by simp [takeError]
@[simp] theorem takeError_tErr : (takeError w ops e s).tErr = (s.tErr || s.bus.port == .t) := by simp [takeError]
@[simp] theorem takeError_fErr : (takeError w ops e s).fErr = (s.fErr || s.bus.port == .f) := by simp [takeError]
@[simp] theorem takeError_history :
    (takeError w ops e s).history = s.history ++ [.cmd s.bus.port w ops (.bare e)] := by
  simp [takeError]
@[simp] theorem takeError_result : (takeError w ops e s).result = some (.bare e) := by simp [takeError]
end takeError

/-- A command that the F port may not issue came on the T port. -/
theorem port_eq_t {i : Instr} {p : Port} (hp : legalPort i p = true) (hf : legalPort i .f = false) : p = .t := by
  cases p with
  | t => rfl
  | f => rw [hf] at hp; cases hp

/-- A command that the T port may not issue came on the F port. -/
theorem port_eq_f {i : Instr} {p : Port} (hp : legalPort i p = true) (ht : legalPort i .t = false) : p = .f := by
  cases p with
  | t => rw [ht] at hp; cases hp
  | f => rfl

/-- What serving the request on the buses does: the request waits, an error is taken, or a body is done and its frame
ended. -/
inductive Served (s : State) : State → Prop
  | waits : Served s s
  | error (w : CmdWord) (ops : Operands) (e : ResCode) : e.isError = true → Served s (takeError w ops e s)
  | done (i : Instr) (s' : State) (r : Result) : legalPort i s.bus.port = true → BodyDone i s s' r →
      Served s (conclude (encode i) (operandsRead i s.bus) r s')

theorem served_of_exec {i : Instr} {s t : State} (h : exec i s = .next t) : Served s t := by
  obtain ⟨-, rfl⟩ | ⟨-, e, he, rfl, -⟩ | ⟨-, hp, s', r, hbody, rfl⟩ := exec_inv h
  · exact .waits
  · exact .error _ _ e he
  · exact .done i s' r hp hbody

theorem served_of_serve {r : Request} {s t : State} (h : serve r s = .next t) :
    Served { s with bus := Request.latch s.par r } t := by
  obtain ⟨i, -, hexec⟩ | ⟨_, -, ⟨-, rfl⟩ | ⟨-, rfl⟩⟩ := serve_inv h
  · exact served_of_exec hexec
  · exact .waits
  · exact .error _ _ .errIllegal rfl

/-- A step is a reset, or serves what is on the buses, up to the F agent's own state. -/
theorem step_served {s t : State} (h : step s = .next t) :
    (∃ rest, nextMove s = some (.reset, rest) ∧ t = { State.resetWith s.par with inbox := rest }) ∨
    ∃ b rest u l, Served { s with bus := b, inbox := rest } u ∧ t = { u with loop := l } := by
  obtain ⟨-, rfl⟩ | hreset | ⟨r, rest, -, hserve⟩ | ⟨rest, -, hmove⟩ := step_inv h
  · exact .inr ⟨_, _, _, _, .waits, rfl⟩
  · exact .inl hreset
  · exact .inr ⟨_, rest, t, t.loop, served_of_serve hserve, rfl⟩
  · obtain ⟨l, rfl⟩ | ⟨r, u, l, -, hserve, rfl⟩ := loopMove_block hmove
    · exact .inr ⟨s.bus, rest, _, l, .waits, rfl⟩
    · exact .inr ⟨_, rest, u, l, served_of_serve hserve, rfl⟩

/-- INDUCTION STEP of an invariant of the block: a property that does not look at the buses, the inbox or the F agent's own
state is kept by every step, if it holds after reset and is kept by every error and by every body with its frame. -/
theorem step_keeps {Inv : State → Prop} {s t : State} (h : step s = .next t) (hs : Inv s)
    (outside : ∀ s b l rest, Inv s → Inv { s with bus := b, loop := l, inbox := rest })
    (reset : ∀ par, Inv (State.resetWith par))
    (error : ∀ s w ops e, e.isError = true → Inv s → Inv (takeError w ops e s))
    (done : ∀ i s s' r, legalPort i s.bus.port = true → BodyDone i s s' r → Inv s →
      Inv (conclude (encode i) (operandsRead i s.bus) r s')) : Inv t := by
  obtain ⟨rest, -, rfl⟩ | ⟨b, rest, u, l, hserved, rfl⟩ := step_served h
  · exact outside _ _ _ rest (reset s.par)
  · have hbus : Inv { s with bus := b, inbox := rest } := outside s b s.loop rest hs
    refine outside u u.bus l u.inbox ?_
    cases hserved with
    | waits => exact hbus
    | error w ops e he => exact error _ w ops e he hbus
    | done i s' r hp hbody => exact done i _ s' r hp hbody hbus

end Sys2Proof.Machine
end

section
/-! Each register's writers, read off the bodies (10_state.md R21, R25, R26). -/

namespace Sys2Proof.Machine

variable {i : Instr} {s s' : State} {r : Result}

theorem bodyDone_reqEnd (h : BodyDone i s s' r) :
    s'.req.endIdx = s.req.endIdx ∨ (i = .pushReq ∧ s'.req.endIdx = inc s.par s.req.endIdx) := by
  cases h
  case pushReqOk => exact .inr ⟨rfl, rfl⟩
  all_goals exact .inl rfl

theorem bodyDone_reqStart (h : BodyDone i s s' r) :
    s'.req.start = s.req.start ∨ (i = .relReq ∧ s'.req.start = inc s.par s.req.start) := by
  cases h
  case rel => exact .inr ⟨rfl, rfl⟩
  all_goals exact .inl rfl

theorem bodyDone_rspEnd (h : BodyDone i s s' r) :
    s'.rsp.endIdx = s.rsp.endIdx ∨ (i = .pushRsp ∧ s'.rsp.endIdx = inc s.par s.rsp.endIdx) := by
  cases h
  case pushRspOk => exact .inr ⟨rfl, rfl⟩
  all_goals exact .inl rfl

theorem bodyDone_rspStart (h : BodyDone i s s' r) :
    s'.rsp.start = s.rsp.start ∨
      (((i = .kick ∧ s.busy = false) ∨ (i = .txdone ∧ s.busy = true)) ∧ s'.rsp.start = inc s.par s.rsp.start) := by
  cases h
  case txdoneOk hbusy _ _ => exact .inr ⟨.inr ⟨rfl, hbusy⟩, rfl⟩
  case kickOk hbusy _ _ => exact .inr ⟨.inl ⟨rfl, hbusy⟩, rfl⟩
  all_goals exact .inl rfl

theorem bodyDone_busy (h : BodyDone i s s' r) :
    s'.busy = s.busy ∨ (i = .kick ∧ s.rsp.isEmpty = false ∧ s'.busy = true) ∨
      (i = .txdone ∧ s.rsp.isEmpty = true ∧ s'.busy = false) := by
  cases h
  case txdoneIdle _ hempty => exact .inr (.inr ⟨rfl, hempty, rfl⟩)
  case kickOk _ hne _ => exact .inr (.inl ⟨rfl, hne, rfl⟩)
  all_goals exact .inl rfl

theorem bodyDone_reqHeld (h : BodyDone i s s' r) :
    s'.reqHeld = s.reqHeld ∨ (i = .peekReq ∧ s.req.isEmpty = false ∧ s'.reqHeld = true) ∨
      (i = .relReq ∧ s.bus.idxIn = s.req.start ∧ s'.reqHeld = false) := by
  cases h
  case peekOk hne => exact .inr (.inl ⟨rfl, hne, rfl⟩)
  case rel _ hidx => exact .inr (.inr ⟨rfl, hidx, rfl⟩)
  all_goals exact .inl rfl

/-- Settles O29: only a body writes an index register, and each register is written by the bodies named above. -/
theorem eachIndexHasItsOneWriter : Obligations.EachIndexHasItsOneWriter := by
  intro i s t h
  obtain ⟨-, rfl⟩ | ⟨-, e, -, rfl, -⟩ | ⟨-, hp, s', r, hbody, rfl⟩ := exec_inv h
  · simp
  · simp
  · refine ⟨fun hne => ?reqEnd, fun hne => ?reqStart, fun hne => ?rspEnd, fun hne => ?rspStart⟩
    case reqEnd =>
      obtain ⟨rfl, hinc⟩ := (bodyDone_reqEnd hbody).resolve_left hne
      exact ⟨rfl, port_eq_t hp rfl, hinc⟩
    case reqStart =>
      obtain ⟨rfl, hinc⟩ := (bodyDone_reqStart hbody).resolve_left hne
      exact ⟨rfl, port_eq_f hp rfl, hinc⟩
    case rspEnd =>
      obtain ⟨rfl, hinc⟩ := (bodyDone_rspEnd hbody).resolve_left hne
      exact ⟨rfl, port_eq_f hp rfl, hinc⟩
    case rspStart =>
      obtain ⟨⟨rfl, hbusy⟩ | ⟨rfl, hbusy⟩, hinc⟩ := (bodyDone_rspStart hbody).resolve_left hne
      · exact ⟨.inl ⟨rfl, port_eq_f hp rfl, hbusy⟩, hinc⟩
      · exact ⟨.inr ⟨rfl, port_eq_t hp rfl, hbusy⟩, hinc⟩

/-- Settles O35: only a body writes `busy` and `req_held`, and each is written by the bodies named above. -/
theorem busyAndHeldChangeOnlyByTheirCommands : Obligations.BusyAndHeldChangeOnlyByTheirCommands := by
  intro i s t h
  obtain ⟨-, rfl⟩ | ⟨-, e, -, rfl, -⟩ | ⟨-, hp, s', r, hbody, rfl⟩ := exec_inv h
  · simp
  · simp
  · refine ⟨fun hne => ?busy, fun hne => ?held⟩
    case busy =>
      obtain ⟨rfl, hkick⟩ | ⟨rfl, hidle⟩ := (bodyDone_busy hbody).resolve_left hne
      · exact .inl ⟨rfl, port_eq_f hp rfl, hkick⟩
      · exact .inr ⟨rfl, port_eq_t hp rfl, hidle⟩
    case held =>
      obtain ⟨rfl, hpeek⟩ | ⟨rfl, hrel⟩ := (bodyDone_reqHeld hbody).resolve_left hne
      · exact .inl ⟨rfl, port_eq_f hp rfl, hpeek⟩
      · exact .inr ⟨rfl, port_eq_f hp rfl, hrel⟩

/-! ### The structural invariant (10_state.md R23, R32(a) and (b)) -/

/-- A channel that a packet has just joined is not empty (R103). -/
theorem notEmpty_after_push {par : Params} {c : Channel} (h : c.isFull par = false) (pkt : Packet) :
    Channel.isEmpty { c.storeSlot par c.endIdx pkt with endIdx := inc par c.endIdx } = false :=
  (channel_notEmpty_iff _).2 ((channel_notFull_iff par c).1 h).symm

theorem bodyDone_good (h : BodyDone i s s' r) (hg : s.Good) : s'.Good := by
  obtain ⟨hreq, hrsp, hheld⟩ := hg
  cases h
  case pushReqOk hfree hend =>
    exact ⟨good_setEnd (good_storeSlot hreq hend _), hrsp, fun _ => notEmpty_after_push hfree _⟩
  case pushRspOk _ hend => exact ⟨hreq, good_setEnd (good_storeSlot hrsp hend _), hheld⟩
  case peekOk hne => exact ⟨hreq, hrsp, fun _ => hne⟩
  case wrslot _ _ hstart => exact ⟨good_storeSlot hreq hstart _, hrsp, hheld⟩
  case rel => exact ⟨good_setStart hreq, hrsp, Bool.noConfusion⟩
  case txdoneOk => exact ⟨hreq, good_setStart hrsp, hheld⟩
  case kickOk => exact ⟨hreq, good_setStart hrsp, hheld⟩
  all_goals exact ⟨hreq, hrsp, hheld⟩

theorem good_takeError {w : CmdWord} {ops : Operands} {e : ResCode} (hg : s.Good) : (takeError w ops e s).Good := by
  simpa only [State.Good, takeError_par, takeError_req, takeError_rsp, takeError_reqHeld] using hg

theorem good_resetWith (par : Params) : (State.resetWith par).Good :=
  ⟨good_reset par, good_reset par, Bool.noConfusion⟩

/-- Settles O40: an error changes no channel and no held slot, and every body keeps the invariant. -/
theorem stepKeepsGoodStates : Obligations.StepKeepsGoodStates := by
  intro s t hg h
  refine step_keeps (Inv := State.Good) h hg ?outside good_resetWith ?error ?done
  case outside => exact fun _ _ _ _ hg => hg
  case error => exact fun _ _ _ _ _ => good_takeError
  case done =>
    intro i s s' r _ hbody hg
    have hg' : s'.Good := bodyDone_good hbody hg
    exact hg'

end Sys2Proof.Machine
end

section
/-! What a served command appends to the history, and what the history then says of `busy` and the sticky bits (10_state.md
R31, R32(c) and (d)). -/

namespace Sys2Proof.Machine

variable {i : Instr} {s s' t : State} {r : Result}

/-- A body appends at most one event of its own (R31). -/
theorem bodyDone_history (h : BodyDone i s s' r) :
    ∃ before, s'.history = s.history ++ before ∧
      (before = [] ∨ (∃ pkt, before = [.tx pkt] ∧ (i = .kick ∨ i = .txdone)) ∨
        (before = [.ep0Clr s.bus.stallIn] ∧ i = .setup)) := by
  cases h
  case txdoneOk => exact ⟨_, rfl, .inr (.inl ⟨_, rfl, .inr rfl⟩)⟩
  case kickOk => exact ⟨_, rfl, .inr (.inl ⟨_, rfl, .inl rfl⟩)⟩
  case setupClear => exact ⟨_, rfl, .inr (.inr ⟨rfl, rfl⟩)⟩
  all_goals exact ⟨[], (List.append_nil _).symm, .inl rfl⟩

/-- A body appends no `CMD` event, so it leaves what the history says of commands. -/
theorem bodyDone_countCmd (h : BodyDone i s s' r) (port : Port) (word : CmdWord) (ok : ResCode → Bool) :
    countCmd port word ok s'.history = countCmd port word ok s.history := by
  obtain ⟨before, hhist, rfl | ⟨pkt, rfl, -⟩ | ⟨rfl, -⟩⟩ := bodyDone_history h <;> simp [hhist]

theorem bodyDone_errorOn (h : BodyDone i s s' r) (port : Port) :
    errorOn port s'.history = errorOn port s.history := by
  obtain ⟨before, hhist, rfl | ⟨pkt, rfl, -⟩ | ⟨rfl, -⟩⟩ := bodyDone_history h <;> simp [hhist]

/-- Settles O31: an error and a body's frame each end with the command's `CMD` event, and only a body emits another. -/
theorem eventsComeOnlyFromTheirCommands : Obligations.EventsComeOnlyFromTheirCommands := by
  intro i s t ha h
  obtain ⟨hwait, -⟩ | ⟨-, e, -, rfl, -⟩ | ⟨-, -, s', r, hbody, rfl⟩ := exec_inv h
  · rw [(accepts_iff s).2 ha] at hwait
    cases hwait
  · exact ⟨[], .bare e, by simp⟩
  · obtain ⟨before, hhist, hkind⟩ := bodyDone_history hbody
    obtain ⟨-, -, -, hbus, -⟩ := bodyDone_frame hbody
    exact ⟨before, r, rfl, by simp [hhist, hbus], hkind⟩

theorem served_history_prefix (h : Served s t) : s.history <+: t.history := by
  cases h with
  | waits => exact List.prefix_rfl
  | error w ops e => exact ⟨_, (takeError_history w ops e s).symm⟩
  | done i s' r _ hbody =>
    obtain ⟨before, hhist, -⟩ := bodyDone_history hbody
    rw [conclude_history, hhist, List.append_assoc]
    exact List.prefix_append ..

/-- Settles O32: a step that is not a reset serves a command, which only appends. -/
theorem historyIsOnlyAppendedTo : Obligations.HistoryIsOnlyAppendedTo := by
  intro s t h hnoReset
  obtain ⟨rest, hreset, -⟩ | ⟨b, rest, u, l, hserved, rfl⟩ := step_served h
  · exact absurd hreset (hnoReset rest)
  · have hprefix := served_history_prefix hserved
    exact hprefix

/-! ### The sticky bits -/

theorem served_sticky (h : Served s t) : (s.tErr = true → t.tErr = true) ∧ (s.fErr = true → t.fErr = true) := by
  cases h with
  | waits => exact ⟨id, id⟩
  | error w ops e => simp +contextual
  | done i s' r _ hbody =>
    obtain ⟨-, htErr, hfErr, -⟩ := bodyDone_frame hbody
    exact ⟨htErr.trans, hfErr.trans⟩

/-- Settles O33: an error sets the bit of its port, a body's result is no error and its frame leaves both bits. -/
theorem stickyBitsClearOnlyByReset : Obligations.StickyBitsClearOnlyByReset := by
  refine ⟨fun i s t r ha h hr => ?command, fun s t h hnoReset => ?step⟩
  case command =>
    obtain ⟨hwait, -⟩ | ⟨-, e, he, rfl, -⟩ | ⟨-, -, s', r', hbody, rfl⟩ := exec_inv h
    · rw [(accepts_iff s).2 ha] at hwait
      cases hwait
    · obtain rfl : Result.bare e = r := by simpa using hr
      simp [he]
    · obtain rfl : r' = r := by simpa using hr
      obtain ⟨-, htErr, hfErr, -⟩ := bodyDone_frame hbody
      simp [bodyDone_code hbody, htErr, hfErr]
  case step =>
    obtain ⟨rest, hreset, -⟩ | ⟨b, rest, u, l, hserved, rfl⟩ := step_served h
    · exact absurd hreset (hnoReset rest)
    · have hsticky := served_sticky hserved
      exact hsticky

/-- The sticky bits are what the history says of errors (R32(d)). -/
def State.StickyAgrees (s : State) : Prop := s.tErr = errorOn .t s.history ∧ s.fErr = errorOn .f s.history

theorem stickyAgrees_takeError {w : CmdWord} {ops : Operands} {e : ResCode} (he : e.isError = true)
    (hs : s.StickyAgrees) : (takeError w ops e s).StickyAgrees := by
  obtain ⟨ht, hf⟩ := hs
  simp [State.StickyAgrees, ht, hf, he]

theorem stickyAgrees_conclude (hbody : BodyDone i s s' r) (w : CmdWord) (ops : Operands) (hs : s.StickyAgrees) :
    (conclude w ops r s').StickyAgrees := by
  obtain ⟨ht, hf⟩ := hs
  obtain ⟨-, htErr, hfErr, -⟩ := bodyDone_frame hbody
  simp [State.StickyAgrees, bodyDone_errorOn hbody, bodyDone_code hbody, htErr, hfErr, ht, hf]

/-- Settles O43: an error sets its port's bit and appends an error of that port; a body and its frame do neither. -/
theorem stickyBitsRecordTheErrors : Obligations.StickyBitsRecordTheErrors := by
  intro s t ht hf h
  refine step_keeps (Inv := State.StickyAgrees) h ⟨ht, hf⟩ ?outside ?reset ?error ?done
  case outside => exact fun _ _ _ _ hs => hs
  case reset => exact fun _ => ⟨rfl, rfl⟩
  case error => exact fun _ _ _ _ he hs => stickyAgrees_takeError he hs
  case done => exact fun _ _ _ _ _ hbody hs => stickyAgrees_conclude hbody _ _ hs

/-! ### The outstanding transmission -/

/-- `busy` is the number of transmissions less the number of TXDONE answers (R32(c)). -/
def State.BusyAgrees (s : State) : Prop :=
  (txPackets s.history).length = txdonesAnswered s.history + s.busy.toNat

/-- TXDONE is the only command that ends a transmission: a body's new transmission is one more outstanding, less the one
that TXDONE found (R143, R160). -/
theorem bodyDone_txBalance (h : BodyDone i s s' r) :
    (txPackets s'.history).length + s.busy.toNat =
      (txPackets s.history).length + s'.busy.toNat + (if i = .txdone then 1 else 0) := by
  cases h
  case txdoneIdle hbusy _ => simp [hbusy]
  case txdoneOk hbusy _ _ => simp [hbusy]
  case kickOk hbusy _ _ => simp [hbusy]
  case setupClear => simp
  all_goals rfl

theorem bodyDone_txdone_code (h : BodyDone .txdone s s' r) : (r.code == .ok || r.code == .idle) = true := by
  cases h <;> rfl

theorem encode_eq_txdoneWord (i : Instr) : encode i = 0x18#8 ↔ i = .txdone := by
  cases i with
  | nop ch => cases ch <;> decide
  | _ => decide

/-- The frame of a body that is done counts as a TXDONE answer exactly for TXDONE. -/
theorem txdonesAnswered_conclude (hp : legalPort i s.bus.port = true) (hbody : BodyDone i s s' r) (ops : Operands) :
    txdonesAnswered (conclude (encode i) ops r s').history =
      txdonesAnswered s.history + (if i = .txdone then 1 else 0) := by
  obtain ⟨-, -, -, hbus, -⟩ := bodyDone_frame hbody
  rw [conclude_history, txdonesAnswered, countCmd_append, bodyDone_countCmd hbody, countCmd_cmd, hbus]
  by_cases hi : i = .txdone
  · subst hi
    rw [port_eq_t hp rfl, bodyDone_txdone_code hbody, (encode_eq_txdoneWord _).2 rfl]
    rfl
  · have hw : (encode i == 0x18#8) = false := by simpa [encode_eq_txdoneWord] using hi
    simp [hw, hi, txdonesAnswered]

theorem busyAgrees_takeError {w : CmdWord} {ops : Operands} {e : ResCode} (he : e.isError = true)
    (hs : s.BusyAgrees) : (takeError w ops e s).BusyAgrees := by
  have hnot : (e == .ok || e == .idle) = false := by cases e <;> revert he <;> decide
  unfold State.BusyAgrees at hs ⊢
  simpa [txdonesAnswered, countCmd_cmd, hnot] using hs

theorem busyAgrees_conclude (hp : legalPort i s.bus.port = true) (hbody : BodyDone i s s' r) (ops : Operands)
    (hs : s.BusyAgrees) : (conclude (encode i) ops r s').BusyAgrees := by
  unfold State.BusyAgrees at hs ⊢
  rw [txdonesAnswered_conclude hp hbody, conclude_busy, conclude_history, txPackets_append, txPackets_cmd, txPackets_nil,
    List.append_nil]
  have hbalance := bodyDone_txBalance hbody
  omega

/-- Settles O42: an error is no transmission and no TXDONE answer, and a body's new transmissions, answers and `busy` are in
balance. -/
theorem busyCountsTheOutstandingTransmission : Obligations.BusyCountsTheOutstandingTransmission := by
  intro s t hs h
  refine step_keeps (Inv := State.BusyAgrees) h hs ?outside ?reset ?error ?done
  case outside => exact fun _ _ _ _ hs => hs
  case reset => exact fun _ => rfl
  case error => exact fun _ _ _ _ he hs => busyAgrees_takeError he hs
  case done => exact fun _ _ _ _ hp hbody hs => busyAgrees_conclude hp hbody _ hs

end Sys2Proof.Machine
end

section
/-! The flags of a channel, a placed word, and the state after reset (10_state.md R24, R29, R33). -/

namespace Sys2Proof.Machine

/-- Settles O37: with FILL written as a difference of indices, what is left is linear arithmetic. -/
theorem flagsFollowTheFillCount : Obligations.FlagsFollowTheFillCount := by
  intro par c hs he
  have hn := par.two_le_n
  have hfill := fill_eq hs he
  have hle : c.fill par ≤ par.n - 1 := by split_ifs at hfill <;> omega
  have hempty : c.isEmpty = true ↔ c.fill par = 0 := by
    rw [channel_isEmpty_iff]
    split_ifs at hfill <;> omega
  have hfull : c.isFull par = true ↔ c.fill par = par.n - 1 := by
    rw [channel_isFull_iff, inc_eq he]
    split_ifs at hfill ⊢ <;> omega
  refine ⟨fun i hi => ?inc, hle, ?wrap, hempty, hfull, ?notBoth⟩
  case inc =>
    rw [inc_eq hi]
    split_ifs <;> omega
  case wrap =>
    rw [Nat.add_comm, wrap_eq hs (by omega)]
    split_ifs at hfill ⊢ <;> omega
  case notBoth =>
    rw [hempty, hfull]
    omega

/-! ### A placed word -/

theorem decode_of_decodeTableWord {nbits w : Nat} {i : Instr} (h : decodeTableWord nbits w = some i) :
    decode (BitVec.ofNat 8 w) = .legal i := by
  unfold decodeTableWord at h
  split_ifs at h
  split at h
  · next heq => cases h; exact heq
  · cases h

/-- A command's word is placed on a port that may issue it. -/
theorem legalPort_portFor {w : CmdWord} {i : Instr} (h : decode w = .legal i) : legalPort i (portFor w) = true := by
  simp only [portFor, h]
  split_ifs with ht
  · exact ht
  · cases i <;> simp_all [legalPort]

/-- The placed word is the next move, and what waited before it still waits. -/
theorem nextMove_placeWord (w : CmdWord) (s : State) :
    nextMove (placeWord w s) = some (.command (wordRequest s.par w), s.inbox) := by
  refine nextMove_head rfl ?_
  simp only [enabledInput, wordRequest, placeWord]
  cases portFor w <;> rfl

/-- Settles O10: the placed word's request is the next move, and serving it is `exec` of the command it decodes to. -/
theorem placedWordRunsNext : Obligations.PlacedWordRunsNext := by
  intro s w i h
  have hdecode := decode_of_decodeTableWord h
  refine ⟨Request.latch s.par (wordRequest s.par (BitVec.ofNat 8 w)), legalPort_portFor hdecode, rfl, ?_⟩
  unfold step stepWith State.withFetchWord
  rw [nextMove_placeWord]
  simp only [moveWith, serve, serveBus, latch_cmd]
  simp only [wordRequest, hdecode]
  rfl

/-! ### The state after reset -/

/-- Settles O12: `resetWith` writes each of these values. -/
theorem resetGivesEveryElementItsValue : Obligations.ResetGivesEveryElementItsValue :=
  fun _ => ⟨rfl, rfl, rfl, rfl, rfl, rfl, rfl, rfl, rfl, rfl, rfl⟩

theorem loopInv_resetWith (par : Params) : (State.resetWith par).LoopInv :=
  ⟨good_resetWith par, fun _ h => absurd h List.not_mem_nil, trivial, fun _ _ => rfl⟩

/-- Both channels are empty and the history says nothing, so the pairing holds between empty lists. -/
theorem pairInv_resetWith (par : Params) : (State.resetWith par).PairInv := by
  have hempty : Channel.contents par Channel.reset = [] := contents_of_empty rfl
  exact ⟨loopInv_resetWith par, Nat.le_refl 0, hempty, rfl, hempty.symm⟩

/-- Settles O39: each invariant at the reset state. -/
theorem invariantsHoldAfterReset : Obligations.InvariantsHoldAfterReset :=
  fun par => ⟨pairInv_resetWith par, rfl, rfl, rfl⟩

end Sys2Proof.Machine
end

section
/-! The channels as queues: what a body does to the contents of REQ and RSP, what it hands to the transmitter, and when a
channel is full (20_memory.md R55, R59, R60, R62). -/

namespace Sys2Proof.Machine

variable {i : Instr} {s s' t : State} {r : Result}

/-! ### Head and capacity -/

/-- The head of a channel that is not empty is the packet in slot `start` (R55). -/
theorem contents_head? {par : Params} {c : Channel} (hg : c.Good par) (hne : c.isEmpty = false) :
    (c.contents par).head? = some (c.slotBytes par c.start) := by
  rw [contents_release hg hne, List.head?_cons]

/-- A release leaves the contents without their head. -/
theorem contents_setStart {par : Params} {c : Channel} (hg : c.Good par) (hne : c.isEmpty = false) :
    Channel.contents par { c with start := inc par c.start } = (c.contents par).tail := by
  rw [contents_release hg hne, List.tail_cons]

/-- A packet of `P` bytes is stored as it is (R103, R104). -/
theorem contents_push_of_length {par : Params} {c : Channel} (hg : c.Good par) (hf : c.isFull par = false) {pkt : Packet}
    (hlen : pkt.length = par.p) :
    Channel.contents par { c.storeSlot par c.endIdx pkt with endIdx := inc par c.endIdx } = c.contents par ++ [pkt] := by
  rw [contents_push hg hf, fit_of_length hlen]

/-- A packet of `P` bytes replaces the head as it is (R107). -/
theorem contents_rewriteHead_of_length {par : Params} {c : Channel} (hg : c.Good par) (hne : c.isEmpty = false)
    {pkt : Packet} (hlen : pkt.length = par.p) :
    Channel.contents par (c.storeSlot par c.start pkt) = pkt :: (c.contents par).tail := by
  rw [contents_rewriteHead hg hne, fit_of_length hlen]

/-- A channel is full when it holds `N - 1` packets (R60). -/
theorem isFull_iff_contents_length {par : Params} {c : Channel} (hg : c.Good par) :
    c.isFull par = true ↔ (c.contents par).length = par.n - 1 := by
  obtain ⟨hs, he, -, -⟩ := hg
  obtain ⟨-, -, -, -, hfull, -⟩ := flagsFollowTheFillCount par c hs he
  rw [contents_length, hfull]

/-! ### What a body does to the queues -/

theorem bodyDone_reqContents (h : BodyDone i s s' r) (hg : s.Good) (hlen : s.bus.pktIn.length = s.par.p) :
    s'.req.contents s'.par = reqQueueAfter i (r.code == .ok) s.bus.pktIn (s.req.contents s.par) := by
  obtain ⟨hreq, -, hheld⟩ := hg
  cases h
  case pushReqOk hfree _ => exact contents_push_of_length hreq hfree hlen
  case wrslot hh _ _ => exact contents_rewriteHead_of_length hreq (hheld hh) hlen
  case rel hh _ => exact contents_setStart hreq (hheld hh)
  all_goals rfl

theorem bodyDone_rspContents (h : BodyDone i s s' r) (hg : s.Good) (hlen : s.bus.pktIn.length = s.par.p) :
    s'.rsp.contents s'.par = rspQueueAfter i (r.code == .ok) s.bus.pktIn (s.rsp.contents s.par) := by
  obtain ⟨-, hrsp, -⟩ := hg
  cases h
  case pushRspOk hfree _ => exact contents_push_of_length hrsp hfree hlen
  case txdoneOk _ hne _ => exact contents_setStart hrsp hne
  case kickOk _ hne _ => exact contents_setStart hrsp hne
  all_goals rfl

/-- A KICK or TXDONE that answers OK hands RSP's head to the transmitter (R143, R160). -/
theorem bodyDone_transmits (h : BodyDone i s s' r) (hg : s.Good) (hi : i = .kick ∨ i = .txdone) (hok : r.code = .ok) :
    ∃ pkt, (s.rsp.contents s.par).head? = some pkt ∧ txPackets s'.history = txPackets s.history ++ [pkt] := by
  obtain ⟨-, hrsp, -⟩ := hg
  have send (hne : s.rsp.isEmpty = false) : ∃ pkt, (s.rsp.contents s.par).head? = some pkt ∧
      txPackets (s.history ++ [.tx (s.rsp.slotBytes s.par s.rsp.start)]) = txPackets s.history ++ [pkt] :=
    ⟨_, contents_head? hrsp hne, by simp⟩
  cases h
  case txdoneOk _ hne _ => exact send hne
  case kickOk _ hne _ => exact send hne
  all_goals simp at hi hok

/-- RDSLOT reads REQ's head (R106). -/
theorem bodyDone_rdslot (h : BodyDone .rdslotReq s s' r) (hg : s.Good) :
    r.pktOut = (s.req.contents s.par).head? ∧ r.pktOut ≠ none := by
  obtain ⟨hreq, -, hheld⟩ := hg
  cases h
  case rdslot hh _ _ =>
    rw [contents_head? hreq (hheld hh)]
    exact ⟨rfl, Option.some_ne_none _⟩

theorem bodyDone_pushReq_full (h : BodyDone .pushReq s s' r) : r.code = .full ↔ s.req.isFull s.par = true := by
  cases h <;> simp [*]

theorem bodyDone_pushRsp_full (h : BodyDone .pushRsp s s' r) : r.code = .full ↔ s.rsp.isFull s.par = true := by
  cases h <;> simp [*]

/-! ### The refinement -/

@[simp] theorem reqQueueAfter_notOk (i : Instr) (pkt : Packet) (q : List Packet) : reqQueueAfter i false pkt q = q := rfl

@[simp] theorem rspQueueAfter_notOk (i : Instr) (pkt : Packet) (q : List Packet) : rspQueueAfter i false pkt q = q := rfl

/-- A PUSH that ends in an error came on the wrong port: its body raises none (60_exceptions.md R191). -/
theorem wrongPort_of_push_error {e : ResCode} (hi : i = .pushReq ∨ i = .pushRsp)
    (h : (legalPort i s.bus.port = false ∧ e = .errPort) ∨
      (legalPort i s.bus.port = true ∧ e = .errProto ∧ bodyOf i s = .raised .errProto)) :
    legalPort i s.bus.port = false := by
  obtain ⟨hp, -⟩ | ⟨-, -, hbody⟩ := h
  · exact hp
  · obtain ⟨-, hraised⟩ := bodyRaised_of hbody
    rcases hi with rfl | rfl <;> simp at hraised

/-- Settles O45: an error changes no queue and no PUSH on its legal port ends in one; a body that is done acts on the queues
as the lemmas above say. -/
theorem channelsBehaveAsQueues : Obligations.ChannelsBehaveAsQueues := by
  intro i s t r hg ha hlen h hr
  obtain ⟨hwait, -⟩ | ⟨-, e, he, rfl, hkind⟩ | ⟨-, hp, s', r', hbody, rfl⟩ := exec_inv h
  · rw [(accepts_iff s).2 ha] at hwait
    cases hwait
  · obtain rfl : Result.bare e = r := by simpa using hr
    have hok : e ≠ .ok := by rintro rfl; cases he
    have hfull : e ≠ .full := by rintro rfl; cases he
    have hcode : (e == .ok) = false := by simpa using hok
    refine ⟨by simp [hcode], by simp [hcode], fun _ h => absurd h hok, fun _ h => absurd h hok, ?pushReq, ?pushRsp⟩
    case pushReq =>
      rintro rfl
      have hwrong := wrongPort_of_push_error (.inl rfl) hkind
      exact ⟨fun h => absurd h hfull, fun ⟨hport, _⟩ => by simp [hport, legalPort] at hwrong⟩
    case pushRsp =>
      rintro rfl
      have hwrong := wrongPort_of_push_error (.inr rfl) hkind
      exact ⟨fun h => absurd h hfull, fun ⟨hport, _⟩ => by simp [hport, legalPort] at hwrong⟩
  · obtain rfl : r' = r := by simpa using hr
    have hreq := bodyDone_reqContents hbody hg hlen
    have hrsp := bodyDone_rspContents hbody hg hlen
    refine ⟨hreq, hrsp, ?rdslot, ?transmit, ?pushReq, ?pushRsp⟩
    case rdslot =>
      rintro rfl -
      exact bodyDone_rdslot hbody hg
    case transmit =>
      intro hi hok
      obtain ⟨pkt, hhead, htx⟩ := bodyDone_transmits hbody hg hi hok
      exact ⟨pkt, hhead, by simp [htx]⟩
    case pushReq =>
      rintro rfl
      rw [bodyDone_pushReq_full hbody, isFull_iff_contents_length hg.1, and_iff_right (port_eq_t hp rfl)]
    case pushRsp =>
      rintro rfl
      rw [bodyDone_pushRsp_full hbody, isFull_iff_contents_length hg.2.1, and_iff_right (port_eq_f hp rfl)]

/-! ### The order of the responses -/

/-- The packets RSP stored are those transmitted followed by those it still holds (R62). -/
def State.ResponsesInOrder (s : State) : Prop :=
  storedRsp s.history = txPackets s.history ++ s.rsp.contents s.par

/-- The packets a command adds to those RSP stored. -/
def newlyStoredRsp (i : Instr) (r : Result) (pkt : Packet) : List Packet :=
  if i = .pushRsp ∧ r.code = .ok then [pkt] else []

/-- A transmission moves RSP's head to the end of what was transmitted; only a stored PUSH adds a packet to the two. -/
theorem bodyDone_sentAndHeld (h : BodyDone i s s' r) (hg : s.Good) (hlen : s.bus.pktIn.length = s.par.p) :
    txPackets s'.history ++ s'.rsp.contents s'.par =
      txPackets s.history ++ s.rsp.contents s.par ++ newlyStoredRsp i r s.bus.pktIn := by
  obtain ⟨-, hrsp, -⟩ := hg
  cases h
  case pushRspOk hfree _ =>
    have hpush := contents_push_of_length hrsp hfree hlen
    exact (congrArg (txPackets s.history ++ ·) hpush).trans (List.append_assoc ..).symm
  case txdoneOk _ hne _ => simp [newlyStoredRsp, contents_release hrsp hne]
  case kickOk _ hne _ => simp [newlyStoredRsp, contents_release hrsp hne]
  all_goals simp [newlyStoredRsp]

theorem encode_eq_pushRspWord (i : Instr) : encode i = 0x11#8 ↔ i = .pushRsp := by
  cases i with
  | nop ch => cases ch <;> decide
  | _ => decide

/-- A body appends no `CMD` event, so it leaves what the history says of stored packets. -/
theorem bodyDone_storedBy (h : BodyDone i s s' r) (port : Port) (word : CmdWord) :
    storedBy port word s'.history = storedBy port word s.history := by
  obtain ⟨before, hhist, rfl | ⟨pkt, rfl, -⟩ | ⟨rfl, -⟩⟩ := bodyDone_history h <;> simp [hhist]

/-- The frame of a body that is done records a stored response exactly for a PUSH RSP answered OK. -/
theorem storedRsp_conclude (hp : legalPort i s.bus.port = true) (hbody : BodyDone i s s' r) :
    storedRsp (conclude (encode i) (operandsRead i s.bus) r s').history =
      storedRsp s.history ++ newlyStoredRsp i r s.bus.pktIn := by
  obtain ⟨-, -, -, hbus, -⟩ := bodyDone_frame hbody
  rw [conclude_history, storedRsp, storedBy_append, bodyDone_storedBy hbody, storedBy_cmd, hbus]
  by_cases hi : i = .pushRsp
  · subst hi
    simp [newlyStoredRsp, port_eq_f hp rfl, operandsRead, storedRsp, encode_eq_pushRspWord]
  · simp [newlyStoredRsp, hi, storedRsp, encode_eq_pushRspWord]

theorem served_responsesInOrder (h : Served s t) (hg : s.Good) (hlen : s.bus.pktIn.length = s.par.p)
    (hs : s.ResponsesInOrder) : t.ResponsesInOrder := by
  unfold State.ResponsesInOrder at hs ⊢
  cases h with
  | waits => exact hs
  | error w ops e he =>
    have hok : e ≠ .ok := by rintro rfl; cases he
    simpa [storedRsp, storedBy_cmd, hok] using hs
  | done i s' r hp hbody =>
    rw [storedRsp_conclude hp hbody, hs, ← bodyDone_sentAndHeld hbody hg hlen]
    simp

/-- Settles O44: a step serves at most one command, with a latched packet of `P` bytes, and a reset empties RSP and the
history. -/
theorem responsesLeaveInTheOrderStored : Obligations.ResponsesLeaveInTheOrderStored := by
  intro s t hg hs h
  refine step_rel (P := fun s t => s.Good → s.ResponsesInOrder → t.ResponsesInOrder) h ?inbox ?loop ?reset ?served ?still
    hg hs
  case inbox => exact fun _ _ _ hkeep => hkeep
  case loop => exact fun _ _ _ hkeep => hkeep
  case reset => exact fun s _ _ _ => (contents_of_empty (par := s.par) (c := Channel.reset) rfl).symm
  case served =>
    exact fun r s t h hg hs => served_responsesInOrder (served_of_serve h) hg (fit_length _ _) hs
  case still => exact fun _ _ hs => hs

end Sys2Proof.Machine
end

section
/-! The bytes of free slots are never observed: two good states that agree on everything else make the same step
(20_memory.md R55, R56). -/

namespace Sys2Proof.Machine

variable {i : Instr} {s s' t u : State} {r : Result}

/-! ### Agreement, as a replacement of the slot memories -/

/-- A state with other slot memories. -/
def State.withSlots (s : State) (m k : Memory) : State :=
  { s with req := { s.req with slots := m }, rsp := { s.rsp with slots := k } }

/-- What agreeing states have in common: the second is the first with other slot memories that hold the same packets. -/
theorem agreeOnFilled_iff : AgreeOnFilled s s' ↔ ∃ m k, s' = s.withSlots m k ∧
    Channel.contents s.par { s.req with slots := m } = s.req.contents s.par ∧
    Channel.contents s.par { s.rsp with slots := k } = s.rsp.contents s.par := by
  constructor
  · rintro ⟨hrest, hreq, hrsp⟩
    have hs : s.withSlots s'.req.slots s'.rsp.slots = s' := by
      have h := congrArg (fun x : State => x.withSlots s'.req.slots s'.rsp.slots) hrest
      exact h
    refine ⟨_, _, hs.symm, ?_, ?_⟩
    · exact (congrArg (fun x : State => x.req.contents x.par) hs).trans hreq.symm
    · exact (congrArg (fun x : State => x.rsp.contents x.par) hs).trans hrsp.symm
  · rintro ⟨m, k, rfl, hreq, hrsp⟩
    exact ⟨rfl, hreq.symm, hrsp.symm⟩

theorem agreeOnFilled_refl (s : State) : AgreeOnFilled s s := ⟨rfl, rfl, rfl⟩

/-- Agreement does not look at what is outside the channels beyond its being the same. -/
theorem agreeOnFilled_outside (h : AgreeOnFilled s s') (b : Request) (l : Loop) (rest : List Input) :
    AgreeOnFilled { s with bus := b, loop := l, inbox := rest } { s' with bus := b, loop := l, inbox := rest } := by
  obtain ⟨m, k, rfl, hreq, hrsp⟩ := agreeOnFilled_iff.1 h
  exact ⟨rfl, hreq.symm, hrsp.symm⟩

theorem agreeOnFilled_conclude (h : AgreeOnFilled s s') (w : CmdWord) (ops : Operands) (r : Result) :
    AgreeOnFilled (conclude w ops r s) (conclude w ops r s') := by
  obtain ⟨m, k, rfl, hreq, hrsp⟩ := agreeOnFilled_iff.1 h
  exact ⟨rfl, hreq.symm, hrsp.symm⟩

theorem agreeOnFilled_raiseError (ha : AgreeOnFilled s s') : AgreeOnFilled (raiseError s) (raiseError s') := by
  obtain ⟨m, k, rfl, hreq, hrsp⟩ := agreeOnFilled_iff.1 ha
  have hbus : (s.withSlots m k).bus = s.bus := rfl
  unfold raiseError
  rw [hbus]
  split <;> exact ⟨rfl, hreq.symm, hrsp.symm⟩

theorem agreeOnFilled_takeError (ha : AgreeOnFilled s s') (w : CmdWord) (ops : Operands) (e : ResCode) :
    AgreeOnFilled (takeError w ops e s) (takeError w ops e s') :=
  agreeOnFilled_conclude (agreeOnFilled_raiseError ha) w ops (.bare e)

/-! ### Bodies -/

section twoChannels
variable {par : Params} {c d : Channel} (hc : c.Good par) (hd : d.Good par) (h : c.contents par = d.contents par)
include hc hd h

/-- The heads of two channels with the same contents are the same packet. -/
theorem slotBytes_start_congr (hce : c.isEmpty = false) (hde : d.isEmpty = false) :
    c.slotBytes par c.start = d.slotBytes par d.start := by
  have hhead := congrArg List.head? h
  rwa [contents_head? hc hce, contents_head? hd hde, Option.some_inj] at hhead

theorem contents_setStart_congr (hce : c.isEmpty = false) (hde : d.isEmpty = false) :
    Channel.contents par { c with start := inc par c.start } =
      Channel.contents par { d with start := inc par d.start } := by
  rw [contents_setStart hc hce, contents_setStart hd hde, h]

theorem contents_push_congr (hcf : c.isFull par = false) (hdf : d.isFull par = false) (pkt : Packet) :
    Channel.contents par { c.storeSlot par c.endIdx pkt with endIdx := inc par c.endIdx } =
      Channel.contents par { d.storeSlot par d.endIdx pkt with endIdx := inc par d.endIdx } := by
  rw [contents_push hc hcf, contents_push hd hdf, h]

theorem contents_rewriteHead_congr (hce : c.isEmpty = false) (hde : d.isEmpty = false) (pkt : Packet) :
    Channel.contents par (c.storeSlot par c.start pkt) = Channel.contents par (d.storeSlot par d.start pkt) := by
  rw [contents_rewriteHead hc hce, contents_rewriteHead hd hde, h]
end twoChannels

/-- A body that is done ends the same way from an agreeing state: it reads no slot but a filled one. -/
theorem bodyDone_agrees (h : BodyDone i s u r) (hg : s.Good) (hg' : s'.Good) (ha : AgreeOnFilled s s') :
    ∃ u', BodyDone i s' u' r ∧ AgreeOnFilled u u' := by
  obtain ⟨m, k, rfl, hreq, hrsp⟩ := agreeOnFilled_iff.1 ha
  obtain ⟨gq, gp, hheld⟩ := hg
  obtain ⟨gq', gp', -⟩ := hg'
  cases h
  case nop => exact ⟨_, .nop _ _, ha⟩
  case pushReqFull hfull => exact ⟨_, .pushReqFull _ hfull, ha⟩
  case pushReqOk hfree hend =>
    exact ⟨_, .pushReqOk _ hfree hend, rfl, contents_push_congr gq gq' hreq.symm hfree hfree _, hrsp.symm⟩
  case pushRspFull hfull => exact ⟨_, .pushRspFull _ hfull, ha⟩
  case pushRspOk hfree hend =>
    exact ⟨_, .pushRspOk _ hfree hend, rfl, hreq.symm, contents_push_congr gp gp' hrsp.symm hfree hfree _⟩
  case peekEmpty he => exact ⟨_, .peekEmpty _ he, ha⟩
  case peekOk hne => exact ⟨_, .peekOk _ hne, rfl, hreq.symm, hrsp.symm⟩
  case rdslot hh hidx hstart =>
    rw [slotBytes_start_congr gq gq' hreq.symm (hheld hh) (hheld hh)]
    exact ⟨_, .rdslot _ hh hidx hstart, ha⟩
  case wrslot hh hidx hstart =>
    have hne := hheld hh
    exact ⟨_, .wrslot _ hh hidx hstart, rfl, contents_rewriteHead_congr gq gq' hreq.symm hne hne _, hrsp.symm⟩
  case rel hh hidx =>
    exact ⟨_, .rel _ hh hidx, rfl, contents_setStart_congr gq gq' hreq.symm (hheld hh) (hheld hh), hrsp.symm⟩
  case statReq => exact ⟨_, .statReq _, ha⟩
  case statRsp => exact ⟨_, .statRsp _, ha⟩
  case txdoneIdle hbusy he => exact ⟨_, .txdoneIdle _ hbusy he, rfl, hreq.symm, hrsp.symm⟩
  case txdoneOk hbusy hne hstart =>
    rw [slotBytes_start_congr gp gp' hrsp.symm hne hne]
    exact ⟨_, .txdoneOk _ hbusy hne hstart, rfl, hreq.symm, contents_setStart_congr gp gp' hrsp.symm hne hne⟩
  case kickBusy hbusy => exact ⟨_, .kickBusy _ hbusy, ha⟩
  case kickEmpty hbusy he => exact ⟨_, .kickEmpty _ hbusy he, ha⟩
  case kickOk hbusy hne hstart =>
    rw [slotBytes_start_congr gp gp' hrsp.symm hne hne]
    exact ⟨_, .kickOk _ hbusy hne hstart, rfl, hreq.symm, contents_setStart_congr gp gp' hrsp.symm hne hne⟩
  case setupQuiet hm => exact ⟨_, .setupQuiet _ hm, ha⟩
  case setupClear hm => exact ⟨_, .setupClear _ hm, rfl, hreq.symm, hrsp.symm⟩
  case waitSleep hw => exact ⟨_, .waitSleep _ hw, rfl, hreq.symm, hrsp.symm⟩
  case waitGo hw => exact ⟨_, .waitGo _ hw, ha⟩

/-- Whether a body raises an error does not depend on the slot memories. -/
theorem bodyRaised_withSlots {e : ResCode} (h : bodyOf i s = .raised e) (m k : Memory) :
    bodyOf i (s.withSlots m k) = .raised e := by
  obtain ⟨rfl, ⟨rfl, hbusy⟩ | ⟨hi, hcheck⟩⟩ := bodyRaised_of h
  · exact if_pos hbusy
  · have hheld (body : Effect) : ifHeld (s.withSlots m k) body = .raised .errProto := by
      unfold ifHeld
      split_ifs with h1 h2
      · rfl
      · rfl
      · exact absurd hcheck (not_or.2 ⟨h1, h2⟩)
    rcases hi with rfl | rfl | rfl <;> exact hheld _

/-! ### Outcomes -/

/-- If the first outcome is a next state, the second is an agreeing one. -/
def OutcomesAgree (o o' : Host.Outcome State Fault Refusal) : Prop :=
  ∀ t, o = .next t → ∃ t', o' = .next t' ∧ AgreeOnFilled t t'

theorem outcomesAgree_next (h : AgreeOnFilled s s') : OutcomesAgree (.next s) (.next s') := by
  rintro _ ⟨⟩
  exact ⟨s', rfl, h⟩

theorem outcomesAgree_refused (a b : Refusal) : OutcomesAgree (.refused a) (.refused b) := by
  rintro _ ⟨⟩

/-- A command performed in agreeing states, and then a continuation that keeps agreement. -/
theorem outcomesAgree_afterCommand {o o' : Host.Outcome State Fault Refusal}
    {f : State → Host.Outcome State Fault Refusal} (h : OutcomesAgree o o')
    (hf : ∀ u u', AgreeOnFilled u u' → OutcomesAgree (f u) (f u')) :
    OutcomesAgree (afterCommand o f) (afterCommand o' f) := by
  intro t ht
  cases o with
  | next u =>
    obtain ⟨u', rfl, hu⟩ := h u rfl
    exact hf u u' hu t ht
  | fault f => cases ht
  | refused r => cases ht

theorem exec_agrees (i : Instr) (hg : s.Good) (hg' : s'.Good) (ha : AgreeOnFilled s s') :
    OutcomesAgree (exec i s) (exec i s') := by
  intro t h
  obtain ⟨m, k, rfl, -, -⟩ := agreeOnFilled_iff.1 ha
  rw [exec_eq_perform i (s.withSlots m k)]
  obtain ⟨hwait, rfl⟩ | ⟨hacc, e, -, rfl, ⟨hp, rfl⟩ | ⟨hp, rfl, hbody⟩⟩ | ⟨hacc, hp, u, r, hbody, rfl⟩ := exec_inv h
  · exact ⟨_, perform_waits hwait, ha⟩
  · exact ⟨_, perform_wrongPort hacc hp, agreeOnFilled_takeError ha ..⟩
  · exact ⟨_, perform_raised hacc hp (bodyRaised_withSlots hbody m k), agreeOnFilled_takeError ha ..⟩
  · obtain ⟨u', hbody', hu⟩ := bodyDone_agrees hbody hg hg' ha
    exact ⟨_, perform_done hacc hp (body_of_bodyDone hbody'), agreeOnFilled_conclude hu ..⟩

theorem performIllegal_agrees (ha : AgreeOnFilled s s') : OutcomesAgree (performIllegal s) (performIllegal s') := by
  obtain ⟨m, k, rfl, -, -⟩ := agreeOnFilled_iff.1 ha
  have hacc : accepts (s.withSlots m k) = accepts s := rfl
  unfold performIllegal
  rw [hacc]
  split_ifs
  · exact outcomesAgree_next (agreeOnFilled_takeError ha ..)
  · exact outcomesAgree_next ha

theorem serve_agrees (r : Request) (hg : s.Good) (hg' : s'.Good) (ha : AgreeOnFilled s s') :
    OutcomesAgree (serve r s) (serve r s') := by
  obtain ⟨m, k, rfl, -, -⟩ := agreeOnFilled_iff.1 ha
  have hbus := agreeOnFilled_outside ha (Request.latch s.par r) s.loop s.inbox
  unfold serve serveBus
  simp only [latch_cmd]
  split
  · exact exec_agrees _ hg hg' hbus
  · exact performIllegal_agrees hbus

/-! ### The F agent and the step -/

theorem goto_agrees (ha : AgreeOnFilled s s') (l : Label) : AgreeOnFilled (s.goto l) (s'.goto l) := by
  obtain ⟨m, k, rfl, -, -⟩ := agreeOnFilled_iff.1 ha
  exact agreeOnFilled_outside ha s.bus { s.loop with label := l } s.inbox

theorem afterPeek_agrees (ha : AgreeOnFilled s s') : OutcomesAgree (afterPeek s) (afterPeek s') := by
  obtain ⟨m, k, rfl, -, -⟩ := agreeOnFilled_iff.1 ha
  have hresult : (s.withSlots m k).result = s.result := rfl
  unfold afterPeek
  rw [hresult]
  split
  · exact outcomesAgree_next (goto_agrees ha .l0)
  · exact outcomesAgree_next (agreeOnFilled_outside ha s.bus _ s.inbox)
  · exact outcomesAgree_refused _ _

theorem afterStat_agrees (ha : AgreeOnFilled s s') : OutcomesAgree (afterStat s) (afterStat s') := by
  obtain ⟨m, k, rfl, -, -⟩ := agreeOnFilled_iff.1 ha
  have hresult : (s.withSlots m k).result = s.result := rfl
  unfold afterStat
  rw [hresult]
  split
  · exact outcomesAgree_next (goto_agrees ha _)
  · exact outcomesAgree_refused _ _

theorem afterRdslot_agrees (ha : AgreeOnFilled s s') : OutcomesAgree (afterRdslot s) (afterRdslot s') := by
  obtain ⟨m, k, rfl, -, -⟩ := agreeOnFilled_iff.1 ha
  have hresult : (s.withSlots m k).result = s.result := rfl
  unfold afterRdslot
  rw [hresult]
  split
  · exact outcomesAgree_next (agreeOnFilled_outside ha s.bus _ s.inbox)
  · exact outcomesAgree_refused _ _

theorem loopMove_agrees (process : Packet → Packet) (hg : s.Good) (hg' : s'.Good) (ha : AgreeOnFilled s s') :
    OutcomesAgree (loopMove process s) (loopMove process s') := by
  obtain ⟨m, k, rfl, -, -⟩ := agreeOnFilled_iff.1 ha
  have issue (i : Instr) (idx : Nat) (pkt : Packet) :
      OutcomesAgree (issueF i idx pkt s) (issueF i idx pkt (s.withSlots m k)) := serve_agrees _ hg hg' ha
  have goto (l : Label) (u u' : State) (hu : AgreeOnFilled u u') :
      OutcomesAgree (.next (u.goto l)) (.next (u'.goto l)) := outcomesAgree_next (goto_agrees hu l)
  have hloop : (s.withSlots m k).loop = s.loop := rfl
  unfold loopMove
  rw [hloop]
  cases s.loop.label with
  | l0 => exact outcomesAgree_afterCommand (issue _ _ _) (goto .l1)
  | l1 => exact outcomesAgree_afterCommand (issue _ _ _) fun _ _ => afterPeek_agrees
  | l2 => exact outcomesAgree_afterCommand (issue _ _ _) fun _ _ => afterStat_agrees
  | l3 => exact outcomesAgree_afterCommand (issue _ _ _) fun _ _ => afterRdslot_agrees
  | l4 => exact outcomesAgree_next (agreeOnFilled_outside ha s.bus _ s.inbox)
  | l5 => exact outcomesAgree_afterCommand (issue _ _ _) (goto .l6)
  | l6 => exact outcomesAgree_afterCommand (issue _ _ _) (goto .l7)
  | l7 => exact outcomesAgree_afterCommand (issue _ _ _) (goto .l8)
  | l8 => exact outcomesAgree_next (goto_agrees ha .l0)

theorem moveWith_agrees (process : Packet → Packet) (i : Input) (hg : s.Good) (hg' : s'.Good)
    (ha : AgreeOnFilled s s') : OutcomesAgree (moveWith process i s) (moveWith process i s') := by
  cases i with
  | command r => exact serve_agrees r hg hg' ha
  | event e => exact serve_agrees (eventRequest e) hg hg' ha
  | foreground => exact loopMove_agrees process hg hg' ha
  | reset =>
    obtain ⟨m, k, rfl, -, -⟩ := agreeOnFilled_iff.1 ha
    exact outcomesAgree_next (agreeOnFilled_refl _)

/-- Settles O46: the next move does not look at the slot memories, and each move reads only filled slots. -/
theorem freeSlotsAreNeverObserved : Obligations.FreeSlotsAreNeverObserved := by
  intro s s' t hg hg' ha
  revert t
  obtain ⟨m, k, rfl, -, -⟩ := agreeOnFilled_iff.1 ha
  have hnext : nextMove (s.withSlots m k) = nextMove s := rfl
  show OutcomesAgree (step s) (step (s.withSlots m k))
  unfold step stepWith
  rw [hnext]
  split
  · next i rest _ => exact moveWith_agrees _ i hg hg' (agreeOnFilled_outside ha s.bus s.loop rest)
  · exact outcomesAgree_next ha

end Sys2Proof.Machine
end

section
/-! Slot memory: which bytes a command may change, where the filled slots lie, and that a slot that does not exist stops the
machine but is never reached from a good state (20_memory.md R50 to R55). -/

namespace Sys2Proof.Machine

variable {i : Instr} {s s' : State} {r : Result} {f : Fault}

/-! ### The filled slots -/

/-- Settles O38: with FILL written as a difference of indices, what is left is linear arithmetic. -/
theorem slotEndIsAlwaysFree : Obligations.SlotEndIsAlwaysFree := by
  intro par c hs he
  have hfill := fill_eq hs he
  have hlt : c.fill par < par.n := by split_ifs at hfill <;> omega
  refine ⟨fun k hk => ?free, fun j k hj hk hjk => ?distinct, fun hne => ⟨?filled, ?head⟩⟩
  case free =>
    rw [wrap_eq hs (hk.trans hlt)]
    split_ifs at hfill ⊢ <;> omega
  case distinct =>
    rw [wrap_eq hs (hj.trans hlt), wrap_eq hs (hk.trans hlt)] at hjk
    split_ifs at hjk <;> omega
  case filled =>
    have hdiff := (channel_notEmpty_iff c).1 hne
    split_ifs at hfill <;> omega
  case head => exact Nat.mod_eq_of_lt hs

/-! ### The write multiplexer -/

/-- A store changes bytes of its slot only (R51). -/
theorem mem_slot_of_read_storeSlot_ne {par : Params} {c : Channel} {j a : Nat} {pkt : Packet}
    (h : (c.storeSlot par j pkt).slots.read a ≠ c.slots.read a) : slotAddr par j ≤ a ∧ a < slotAddr par j + par.p := by
  by_contra hout
  refine h (read_writeBytes_other _ ?_ _)
  rw [fit_length]
  omega

theorem bodyDone_reqRead (h : BodyDone i s s' r) {a : Nat} (hne : s'.req.slots.read a ≠ s.req.slots.read a) :
    (i = .pushReq ∧ slotAddr s.par s.req.endIdx ≤ a ∧ a < slotAddr s.par s.req.endIdx + s.par.p) ∨
      (i = .wrslotReq ∧ s.reqHeld = true ∧ slotAddr s.par s.req.start ≤ a ∧
        a < slotAddr s.par s.req.start + s.par.p) := by
  cases h
  case pushReqOk => exact .inl ⟨rfl, mem_slot_of_read_storeSlot_ne hne⟩
  case wrslot hheld _ _ => exact .inr ⟨rfl, hheld, mem_slot_of_read_storeSlot_ne hne⟩
  all_goals exact absurd rfl hne

theorem bodyDone_rspRead (h : BodyDone i s s' r) {a : Nat} (hne : s'.rsp.slots.read a ≠ s.rsp.slots.read a) :
    i = .pushRsp ∧ slotAddr s.par s.rsp.endIdx ≤ a ∧ a < slotAddr s.par s.rsp.endIdx + s.par.p := by
  cases h
  case pushRspOk => exact ⟨rfl, mem_slot_of_read_storeSlot_ne hne⟩
  all_goals exact absurd rfl hne

/-- Settles O30: only a body writes slot memory, and each channel's is written by the bodies named above. -/
theorem slotsAreWrittenOnlyThroughTheMultiplexer : Obligations.SlotsAreWrittenOnlyThroughTheMultiplexer := by
  intro i s t a h
  obtain ⟨-, rfl⟩ | ⟨-, e, -, rfl, -⟩ | ⟨-, -, s', r, hbody, rfl⟩ := exec_inv h
  · simp
  · simp
  · exact ⟨bodyDone_reqRead hbody, bodyDone_rspRead hbody⟩

/-! ### Slots that do not exist -/

/-- A served command on its legal port whose body stops. -/
theorem exec_stop (hp : legalPort i s.bus.port = true) (ha : s.bus.port = .f → s.fAsleep = false)
    (hb : bodyOf i s = .stop f) : exec i s = .fault f := by
  rw [exec_eq_perform]
  exact perform_stop ((accepts_iff s).2 ha) hp hb

/-- A hand-off from a slot that does not exist (R52). -/
theorem sendHead_stop (h : s.par.n ≤ s.rsp.start) : sendHead s = .error (.noSuchSlot .rsp s.rsp.start) := by
  rw [sendHead_eq, if_neg (not_lt.2 h)]

theorem txdoneBody_stop (hbusy : s.busy = true) (hne : s.rsp.isEmpty = false) (h : s.par.n ≤ s.rsp.start) :
    txdoneBody s = .stop (.noSuchSlot .rsp s.rsp.start) := by
  simp [txdoneBody, hbusy, hne, sendHead_stop h]

theorem kickBody_stop (hbusy : s.busy = false) (hne : s.rsp.isEmpty = false) (h : s.par.n ≤ s.rsp.start) :
    kickBody s = .stop (.noSuchSlot .rsp s.rsp.start) := by
  simp [kickBody, hbusy, hne, sendHead_stop h]

/-- With the head held and named, the body after the checks is what runs (R106, R107). -/
theorem ifHeld_pass (hheld : s.reqHeld = true) (hidx : s.bus.idxIn = s.req.start) (body : Effect) :
    ifHeld s body = body := by
  simp [ifHeld, hheld, hidx]

theorem rdslotBody_stop (h : s.par.n ≤ s.req.start) : rdslotBody s = .stop (.noSuchSlot .req s.req.start) := by
  simp [rdslotBody, slotRead, not_lt.2 h]

theorem wrslotBody_stop (h : s.par.n ≤ s.req.start) : wrslotBody s = .stop (.noSuchSlot .req s.req.start) := by
  simp [wrslotBody, slotWrite, not_lt.2 h]

/-- Settles O28: each body that reads or writes a slot stops when the slot does not exist. -/
theorem missingSlotStopsTheMachine : Obligations.MissingSlotStopsTheMachine := by
  refine ⟨fun s hport hend hfree => ?pushReq, fun s hport hawake hend hfree => ?pushRsp,
    fun s hport hawake hheld hidx hstart => ?held, fun s hport hbusy hne hstart => ?txdone,
    fun s hport hawake hbusy hne hstart => ?kick⟩
  case pushReq =>
    refine exec_stop (by rw [hport]; rfl) (by simp [hport]) (pushBody_stop (ch := .req) ?_ hend)
    exact (channel_notFull_iff ..).2 hfree
  case pushRsp =>
    refine exec_stop (by rw [hport]; rfl) (fun _ => hawake) (pushBody_stop (ch := .rsp) ?_ hend)
    exact (channel_notFull_iff ..).2 hfree
  case held =>
    constructor
    · exact exec_stop (by rw [hport]; rfl) (fun _ => hawake) ((ifHeld_pass hheld hidx _).trans (rdslotBody_stop hstart))
    · exact exec_stop (by rw [hport]; rfl) (fun _ => hawake) ((ifHeld_pass hheld hidx _).trans (wrslotBody_stop hstart))
  case txdone =>
    refine exec_stop (by rw [hport]; rfl) (by simp [hport]) (txdoneBody_stop hbusy ?_ hstart)
    exact (channel_notEmpty_iff _).2 hne
  case kick =>
    refine exec_stop (by rw [hport]; rfl) (fun _ => hawake) (kickBody_stop hbusy ?_ hstart)
    exact (channel_notEmpty_iff _).2 hne

/-- INVERSION of a faulting command: its body stopped. -/
theorem bodyStop_of_exec_fault (h : exec i s = .fault f) : bodyOf i s = .stop f := by
  rw [exec_eq_perform] at h
  unfold perform at h
  split_ifs at h
  split at h
  · cases h
  · cases h
  · next hbody => cases h; exact hbody

/-- In a good state every index register names a slot, so no command faults (R52). -/
theorem exec_not_fault (hg : s.Good) (i : Instr) (f : Fault) : exec i s ≠ .fault f := by
  intro h
  obtain ⟨⟨hreqStart, hreqEnd, -⟩, ⟨hrspStart, hrspEnd, -⟩, -⟩ := hg
  obtain ⟨-, hout⟩ | ⟨-, hout⟩ | ⟨-, hout⟩ | ⟨-, hout⟩ := bodyStop_of (bodyStop_of_exec_fault h)
  · exact absurd hreqEnd (not_lt.2 hout)
  · exact absurd hrspEnd (not_lt.2 hout)
  · exact absurd hreqStart (not_lt.2 hout)
  · exact absurd hrspStart (not_lt.2 hout)

theorem serve_not_fault (hg : s.Good) (b : Request) (f : Fault) : serve b s ≠ .fault f := by
  unfold serve serveBus
  split
  · exact exec_not_fault (s := { s with bus := Request.latch s.par b }) hg _ f
  · unfold performIllegal
    split_ifs <;> simp

theorem afterPeek_not_fault (s : State) (f : Fault) : afterPeek s ≠ .fault f := by
  unfold afterPeek
  split <;> simp

theorem afterStat_not_fault (s : State) (f : Fault) : afterStat s ≠ .fault f := by
  unfold afterStat
  split <;> simp

theorem afterRdslot_not_fault (s : State) (f : Fault) : afterRdslot s ≠ .fault f := by
  unfold afterRdslot
  split <;> simp

/-- What follows a command adds no fault of its own. -/
theorem afterCommand_not_fault {o : Host.Outcome State Fault Refusal} {k : State → Host.Outcome State Fault Refusal}
    (ho : o ≠ .fault f) (hk : ∀ u, k u ≠ .fault f) : afterCommand o k ≠ .fault f := by
  unfold afterCommand
  split
  · exact hk _
  · exact ho
  · simp

theorem loopMove_not_fault (process : Packet → Packet) (hg : s.Good) (f : Fault) : loopMove process s ≠ .fault f := by
  have issue (i : Instr) (idx : Nat) (pkt : Packet) : issueF i idx pkt s ≠ .fault f := serve_not_fault hg _ f
  have next (u : State) : Host.Outcome.next u ≠ (.fault f : Host.Outcome State Fault Refusal) := nofun
  unfold loopMove
  cases s.loop.label with
  | l0 => exact afterCommand_not_fault (issue _ _ _) fun _ => next _
  | l1 => exact afterCommand_not_fault (issue _ _ _) (afterPeek_not_fault · f)
  | l2 => exact afterCommand_not_fault (issue _ _ _) (afterStat_not_fault · f)
  | l3 => exact afterCommand_not_fault (issue _ _ _) (afterRdslot_not_fault · f)
  | l4 => exact next _
  | l5 => exact afterCommand_not_fault (issue _ _ _) fun _ => next _
  | l6 => exact afterCommand_not_fault (issue _ _ _) fun _ => next _
  | l7 => exact afterCommand_not_fault (issue _ _ _) fun _ => next _
  | l8 => exact next _

theorem moveWith_not_fault (process : Packet → Packet) (hg : s.Good) (i : Input) (f : Fault) :
    moveWith process i s ≠ .fault f := by
  cases i with
  | command r => exact serve_not_fault hg r f
  | event e => exact serve_not_fault hg (eventRequest e) f
  | foreground => exact loopMove_not_fault process hg f
  | reset => exact nofun

/-- Settles O41: a step is at most one move, and none faults in a good state. -/
theorem goodStatesReachNoMissingSlot : Obligations.GoodStatesReachNoMissingSlot := by
  intro s f hg
  unfold step stepWith
  split
  · next i rest _ => exact moveWith_not_fault (s := { s with inbox := rest }) _ hg i f
  · exact nofun

end Sys2Proof.Machine
end

section
/-! Encoding: the decoder is membership in the legal table, and the encoder names the table's word of each command
(30_encoding.md R71, R72, R76). -/

namespace Sys2Proof

/-- With each word listed once, a lookup finds exactly the listed rows. -/
theorem lookupWord_eq_some_iff {l : List (CmdWord × Instr)} (hl : (l.map Prod.fst).Nodup) (w : CmdWord) (i : Instr) :
    lookupWord w l = some i ↔ (w, i) ∈ l := by
  induction l with
  | nil => simp [lookupWord]
  | cons row rest ih =>
    obtain ⟨v, j⟩ := row
    obtain ⟨hv, hrest⟩ := List.nodup_cons.1 hl
    rw [lookupWord, List.mem_cons, Prod.mk.injEq]
    split_ifs with h
    · subst h
      have hnot : (v, i) ∉ rest := fun hmem => hv (List.mem_map.2 ⟨(v, i), hmem, rfl⟩)
      simp [hnot, eq_comm]
    · simp [Ne.symm h, ih hrest]

theorem reservedBits_of_mem_legalTable : ∀ row ∈ legalTable, row.1.extractLsb' 5 3 = 0#3 := by decide

theorem encode_of_mem_legalTable : ∀ row ∈ legalTable, encode row.2 = row.1 := by decide

/-- The decoder accepts exactly the rows of the legal table: the check of the reserved bits rejects none of them. -/
theorem decode_eq_legal_iff (w : CmdWord) (i : Instr) : decode w = .legal i ↔ (w, i) ∈ legalTable := by
  rw [← lookupWord_eq_some_iff (by decide)]
  unfold decode
  split_ifs with h
  · have hnone : lookupWord w legalTable ≠ some i := fun hw =>
      h (reservedBits_of_mem_legalTable _ ((lookupWord_eq_some_iff (by decide) w i).1 hw))
    simp [hnone]
  · cases lookupWord w legalTable <;> simp

/-- Every command's word has the layout of R71. -/
theorem wordLayout : ∀ i : Instr, Laws.WordLayout.Statement i
  | .nop ch => Laws.WordLayout.nop ch
  | .pushReq => Laws.WordLayout.pushReq
  | .pushRsp => Laws.WordLayout.pushRsp
  | .peekReq => Laws.WordLayout.peekReq
  | .rdslotReq => Laws.WordLayout.rdslotReq
  | .wrslotReq => Laws.WordLayout.wrslotReq
  | .relReq => Laws.WordLayout.relReq
  | .statReq => Laws.WordLayout.statReq
  | .statRsp => Laws.WordLayout.statRsp
  | .txdone => Laws.WordLayout.txdone
  | .kick => Laws.WordLayout.kick
  | .setup => Laws.WordLayout.setup
  | .wait => Laws.WordLayout.wait

@[simp] theorem decode_encode (i : Instr) : decode (encode i) = .legal i := by
  obtain ⟨-, -, -, -, hmem⟩ := wordLayout i
  exact (decode_eq_legal_iff _ _).2 hmem

theorem encode_of_decode {w : CmdWord} {i : Instr} (h : decode w = .legal i) : encode i = w :=
  encode_of_mem_legalTable (w, i) ((decode_eq_legal_iff w i).1 h)

/-- Settles O3: a command's word is its row of the legal table, and each row's word is its command's. -/
theorem encodingAndDecodingAgree : Obligations.EncodingAndDecodingAgree :=
  ⟨decode_encode, fun _ _ => encode_of_decode⟩

/-- Settles O2: decoding is membership in the legal table, and the ports are read off command by command. -/
theorem legalEncodingsAreExactlyTheTable : Obligations.LegalEncodingsAreExactlyTheTable := by
  refine ⟨decode_eq_legal_iff, fun i p => ?ports⟩
  cases i
  case nop | statReq | statRsp => exact iff_of_true rfl trivial
  all_goals cases p <;> decide

/-- Settles O1: each word is looked up in the legal table. -/
theorem decodeReadsWrittenOutWords : Obligations.DecodeReadsWrittenOutWords := by
  unfold Obligations.DecodeReadsWrittenOutWords
  decide

end Sys2Proof
end

section
/-! A request that is next in the inbox: the step puts it on the buses and serves it (30_encoding.md R70, R77, R80;
20_memory.md R58). -/

namespace Sys2Proof.Machine

variable {s : State} {r : Request} {rest : List Input}

/-- A command is enabled exactly when its port accepts it. -/
theorem enabledInput_command (asleep busy : Bool) (r : Request) :
    enabledInput asleep busy (.command r) = true ↔ (r.port = .f → asleep = false) := by
  simp only [enabledInput]
  cases r.port <;> simp

/-- A request that its port accepts and the buses can carry is served as it stands. -/
theorem step_command (h : s.inbox = .command r :: rest) (ha : r.port = .f → s.fAsleep = false)
    (hwf : r.wf s.par = true) : step s = serveBus { s with inbox := rest, bus := r } := by
  have hnext := nextMove_head h ((enabledInput_command _ s.busy r).2 ha)
  simp only [step, stepWith, hnext, moveWith, serve, latch_of_wf hwf]

/-- Taking an error on a port that accepts the command, as one update: the F side is awake after it either way
(60_exceptions.md R192; 42_command_loop.md R162). -/
theorem takeError_eq (w : CmdWord) (ops : Operands) (e : ResCode) (ha : s.bus.port = .f → s.fAsleep = false) :
    takeError w ops e s = { s with
      tErr := (s.tErr || s.bus.port == .t), fErr := (s.fErr || s.bus.port == .f), fAsleep := false
      history := s.history ++ [.cmd s.bus.port w ops (.bare e)]
      result := some (.bare e) } := by
  unfold takeError conclude raiseError
  cases hport : s.bus.port with
  | t => simp [hport]
  | f => simp [hport, ha hport]

/-- Settles O6: serving a legal word is `exec` of its command. -/
theorem stepPerformsTheDecodedCommand : Obligations.StepPerformsTheDecodedCommand := by
  intro s r rest i hinbox ha hwf hdecode
  rw [step_command hinbox ha hwf]
  simp only [serveBus, hdecode]

/-- Settles O7: serving a word that is no command takes ERR_ILLEGAL, with no operands recorded. -/
theorem illegalWordReturnsErrIllegal : Obligations.IllegalWordReturnsErrIllegal := by
  intro s r rest why hinbox ha hwf hdecode
  have herror := takeError_eq (s := { s with inbox := rest, bus := r }) r.cmd {} .errIllegal ha
  refine ⟨{}, ?_⟩
  rw [step_command hinbox ha hwf]
  simp only [serveBus, hdecode, performIllegal, (accepts_iff { s with inbox := rest, bus := r }).2 ha, if_true, herror]
  rfl

end Sys2Proof.Machine
end

section
/-! The result of a command: which codes each command answers and which result operands it drives (30_encoding.md R74,
R75). -/

namespace Sys2Proof.Machine

variable {i : Instr} {s s' : State} {r : Result}

theorem bodyDone_code_ne_error (h : BodyDone i s s' r) {e : ResCode} (he : e.isError = true) : r.code ≠ e := by
  rintro rfl
  rw [bodyDone_code h] at he
  cases he

theorem bodyDone_code_empty (h : BodyDone i s s' r) (hc : r.code = .empty) : i = .peekReq ∨ i = .kick := by
  cases h
  case peekEmpty => exact .inl rfl
  case kickEmpty => exact .inr rfl
  all_goals cases hc

theorem bodyDone_code_full (h : BodyDone i s s' r) (hc : r.code = .full) : i = .pushReq ∨ i = .pushRsp := by
  cases h
  case pushReqFull => exact .inl rfl
  case pushRspFull => exact .inr rfl
  all_goals cases hc

theorem bodyDone_code_busy (h : BodyDone i s s' r) (hc : r.code = .busy) : i = .kick := by
  cases h
  case kickBusy => rfl
  all_goals cases hc

theorem bodyDone_code_idle (h : BodyDone i s s' r) (hc : r.code = .idle) : i = .txdone := by
  cases h
  case txdoneIdle => rfl
  all_goals cases hc

theorem bodyDone_idxOut_iff (h : BodyDone i s s' r) : r.idxOut ≠ none ↔ i = .peekReq ∧ r.code = .ok := by
  cases h <;> simp

theorem bodyDone_pktOut_iff (h : BodyDone i s s' r) : r.pktOut ≠ none ↔ i = .rdslotReq ∧ r.code = .ok := by
  cases h <;> simp

theorem bodyDone_statOut_iff (h : BodyDone i s s' r) :
    r.statOut ≠ none ↔ (i = .statReq ∨ i = .statRsp) ∧ r.code = .ok := by
  cases h <;> simp

/-- Only RDSLOT, WRSLOT, REL and TXDONE raise an error of their own. -/
theorem instr_of_bodyRaised {e : ResCode} (h : bodyOf i s = .raised e) :
    i = .rdslotReq ∨ i = .wrslotReq ∨ i = .relReq ∨ i = .txdone := by
  obtain ⟨-, ⟨rfl, -⟩ | ⟨rfl | rfl | rfl, -⟩⟩ := bodyRaised_of h <;> simp

/-- Settles O4: an accepted command takes ERR_PORT or ERR_PROTO, which drive `RES` alone, or ends as its body does, with no
error. -/
theorem resultsAreThoseOfTheCommand : Obligations.ResultsAreThoseOfTheCommand := by
  refine ⟨⟨rfl, rfl, rfl, rfl, rfl, rfl, rfl, rfl⟩, fun i s t ha h => ?_⟩
  obtain ⟨hwait, -⟩ | ⟨-, e, -, rfl, ⟨-, rfl⟩ | ⟨-, rfl, hraised⟩⟩ | ⟨-, -, s', r, hbody, rfl⟩ := exec_inv h
  · simp [(accepts_iff s).2 ha] at hwait
  · exact ⟨_, takeError_result .., by simp⟩
  · exact ⟨_, takeError_result .., by simp [instr_of_bodyRaised hraised]⟩
  · exact ⟨r, rfl, bodyDone_code_ne_error hbody rfl, bodyDone_code_empty hbody, bodyDone_code_full hbody,
      bodyDone_code_busy hbody, bodyDone_code_idle hbody, fun hc => absurd hc (bodyDone_code_ne_error hbody rfl),
      bodyDone_idxOut_iff hbody, bodyDone_pktOut_iff hbody, bodyDone_statOut_iff hbody⟩

end Sys2Proof.Machine
end

section
/-! The buses a command does not read: what it does depends on the buses through its port and the operands it reads
(30_encoding.md R73). -/

namespace Sys2Proof.Machine

/-- A state with other buses. -/
def State.withBus (s : State) (b : Request) : State := { s with bus := b }

/-- A body's effect with other buses. -/
def Effect.withBus (b : Request) : Effect → Effect
  | .done s r => .done (s.withBus b) r
  | .raised e => .raised e
  | .stop f => .stop f

section withBus
variable (s : State) (b : Request)

@[simp] theorem withBus_par : (s.withBus b).par = s.par := rfl
@[simp] theorem withBus_req : (s.withBus b).req = s.req := rfl
@[simp] theorem withBus_rsp : (s.withBus b).rsp = s.rsp := rfl
@[simp] theorem withBus_busy : (s.withBus b).busy = s.busy := rfl
@[simp] theorem withBus_reqHeld : (s.withBus b).reqHeld = s.reqHeld := rfl
@[simp] theorem withBus_bus : (s.withBus b).bus = b := rfl
@[simp] theorem withBus_chan (ch : Chan) : (s.withBus b).chan ch = s.chan ch := by cases ch <;> rfl

theorem status_withBus (ch : Chan) : status (s.withBus b) ch = status s ch := by cases ch <;> rfl

theorem slotRead_withBus (ch : Chan) (k : Nat) : slotRead ch k (s.withBus b) = slotRead ch k s := by cases ch <;> rfl

theorem slotWrite_withBus (ch : Chan) (k : Nat) (pkt : Packet) :
    slotWrite ch k pkt (s.withBus b) = (slotWrite ch k pkt s).map (·.withBus b) := by
  unfold slotWrite
  simp only [withBus_par, withBus_chan]
  split_ifs
  · cases ch <;> rfl
  · rfl

theorem advanceEnd_withBus (ch : Chan) : advanceEnd ch (s.withBus b) = (advanceEnd ch s).withBus b := by
  cases ch <;> rfl

theorem sendHead_withBus : sendHead (s.withBus b) = (sendHead s).map (·.withBus b) := by
  simp only [sendHead, withBus_rsp, slotRead_withBus]
  cases slotRead .rsp s.rsp.start s <;> rfl

/-! ### Bodies -/

theorem peekBody_withBus : peekBody (s.withBus b) = (peekBody s).withBus b := by
  unfold peekBody
  rw [apply_ite (Effect.withBus b)]
  rfl

theorem rdslotBody_withBus : rdslotBody (s.withBus b) = (rdslotBody s).withBus b := by
  simp only [rdslotBody, withBus_req, slotRead_withBus]
  cases slotRead .req s.req.start s <;> rfl

theorem statBody_withBus (ch : Chan) : statBody ch (s.withBus b) = (statBody ch s).withBus b := by
  simp only [statBody, status_withBus, Effect.withBus]

theorem txdoneBody_withBus : txdoneBody (s.withBus b) = (txdoneBody s).withBus b := by
  simp only [txdoneBody, withBus_busy, withBus_rsp, sendHead_withBus]
  split_ifs
  · rfl
  · rfl
  · cases sendHead s <;> rfl

theorem kickBody_withBus : kickBody (s.withBus b) = (kickBody s).withBus b := by
  simp only [kickBody, withBus_busy, withBus_rsp, sendHead_withBus]
  split_ifs
  · rfl
  · rfl
  · cases sendHead s <;> rfl

theorem waitBody_withBus : waitBody (s.withBus b) = (waitBody s).withBus b := by
  unfold waitBody
  rw [apply_ite (Effect.withBus b)]
  rfl
end withBus

section readOperands
variable {s : State} {b : Request}

theorem pushBody_withBus (hpkt : b.pktIn = s.bus.pktIn) (ch : Chan) :
    pushBody ch (s.withBus b) = (pushBody ch s).withBus b := by
  simp only [pushBody, withBus_chan, withBus_par, withBus_bus, slotWrite_withBus, hpkt]
  split_ifs
  · rfl
  · cases slotWrite ch (s.chan ch).endIdx s.bus.pktIn s with
    | ok u => exact congrArg (Effect.done · (.bare .ok)) (advanceEnd_withBus u b ch)
    | error f => rfl

theorem wrslotBody_withBus (hpkt : b.pktIn = s.bus.pktIn) : wrslotBody (s.withBus b) = (wrslotBody s).withBus b := by
  simp only [wrslotBody, withBus_req, withBus_bus, slotWrite_withBus, hpkt]
  cases slotWrite .req s.req.start s.bus.pktIn s <;> rfl

theorem setupBody_withBus (hmask : b.stallIn = s.bus.stallIn) : setupBody (s.withBus b) = (setupBody s).withBus b := by
  simp only [setupBody, withBus_bus, hmask]
  split_ifs <;> rfl

theorem ifHeld_withBus (hidx : b.idxIn = s.bus.idxIn) {body body' : Effect} (hbody : body' = body.withBus b) :
    ifHeld (s.withBus b) body' = (ifHeld s body).withBus b := by
  simp only [ifHeld, withBus_reqHeld, withBus_req, withBus_bus, hidx, hbody]
  split_ifs <;> rfl
end readOperands

variable {i : Instr} {s : State} {b : Request}

/-- A body depends on the buses through the operands its command reads. -/
theorem bodyOf_withBus (h : operandsRead i b = operandsRead i s.bus) :
    bodyOf i (s.withBus b) = (bodyOf i s).withBus b := by
  cases i <;> simp only [operandsRead, Operands.mk.injEq, Option.some.injEq, and_true, true_and] at h
  case nop => rfl
  case pushReq => exact pushBody_withBus h .req
  case pushRsp => exact pushBody_withBus h .rsp
  case peekReq => exact peekBody_withBus s b
  case rdslotReq => exact ifHeld_withBus h (rdslotBody_withBus s b)
  case wrslotReq =>
    obtain ⟨hidx, hpkt⟩ := h
    exact ifHeld_withBus hidx (wrslotBody_withBus hpkt)
  case relReq => exact ifHeld_withBus h rfl
  case statReq => exact statBody_withBus s b .req
  case statRsp => exact statBody_withBus s b .rsp
  case txdone => exact txdoneBody_withBus s b
  case kick => exact kickBody_withBus s b
  case setup => exact setupBody_withBus h
  case wait => exact waitBody_withBus s b

/-! ### The frame -/

/-- The frame's end reads the port of the buses and nothing else of them. -/
theorem conclude_withBus (hport : b.port = s.bus.port) (w : CmdWord) (ops : Operands) (r : Result) :
    conclude w ops r (s.withBus b) = (conclude w ops r s).withBus b := by
  simp only [conclude, State.withBus, hport]

theorem takeError_withBus (hport : b.port = s.bus.port) (w : CmdWord) (ops : Operands) (e : ResCode) :
    takeError w ops e (s.withBus b) = (takeError w ops e s).withBus b := by
  have hraise : raiseError (s.withBus b) = (raiseError s).withBus b := by
    simp only [raiseError, withBus_bus, hport]
    split <;> rfl
  unfold takeError
  rw [hraise]
  exact conclude_withBus (hport.trans (congrArg Request.port (raiseError_bus s).symm)) ..

/-- A command on buses with the same port and the same operands it reads does the same, up to the buses themselves. -/
theorem dropBus_exec_withBus (hport : b.port = s.bus.port) (hops : operandsRead i b = operandsRead i s.bus) :
    dropBus (exec i (s.withBus b)) = dropBus (exec i s) := by
  have haccepts : accepts (s.withBus b) = accepts s := by
    simp only [accepts, withBus_bus, hport]
    rfl
  simp only [exec_eq_perform, perform, haccepts, withBus_bus, hport, hops, bodyOf_withBus hops]
  split_ifs
  · cases hbody : bodyOf i s with
    | done s' r =>
      obtain ⟨-, -, -, hbus, -⟩ := bodyDone_frame (bodyDone_of hbody)
      simp only [Effect.withBus, conclude_withBus (s := s') (hbus ▸ hport)]
      rfl
    | raised e =>
      simp only [Effect.withBus, takeError_withBus hport]
      rfl
    | stop f => rfl
  · rw [takeError_withBus hport]
    rfl
  · rfl

/-- Settles O5: a command that does not list a bus reads the same operands when that bus changes. -/
theorem unreadBusesAreIgnored : Obligations.UnreadBusesAreIgnored := by
  intro i s
  refine ⟨fun hrdslot hwrslot hrel k => dropBus_exec_withBus rfl ?idx,
    fun hpushReq hpushRsp hwrslot pkt => dropBus_exec_withBus rfl ?pkt,
    fun hsetup m => dropBus_exec_withBus rfl ?stall⟩
  case idx =>
    cases i
    case rdslotReq => exact absurd rfl hrdslot
    case wrslotReq => exact absurd rfl hwrslot
    case relReq => exact absurd rfl hrel
    all_goals rfl
  case pkt =>
    cases i
    case pushReq => exact absurd rfl hpushReq
    case pushRsp => exact absurd rfl hpushRsp
    case wrslotReq => exact absurd rfl hwrslot
    all_goals rfl
  case stall =>
    cases i
    case setup => exact absurd rfl hsetup
    all_goals rfl

end Sys2Proof.Machine
end

section
/-! Listings: the pseudo-instructions and the two status bits they read (30_encoding.md R81, R82). -/

namespace Sys2Proof.Machine

/-- Bit 0 of a status word is EMPTY, whatever the indices are (10_state.md R30). -/
@[simp] theorem statusBit_status_empty (s : State) (ch : Chan) : statusBit (status s ch) 0 = (s.chan ch).isEmpty := by
  simp only [statusBit, status, BitVec.getLsbD_append]
  simp

/-- Bit 1 of a status word is FULL, whatever the indices are (10_state.md R30). -/
@[simp] theorem statusBit_status_full (s : State) (ch : Chan) :
    statusBit (status s ch) 1 = (s.chan ch).isFull s.par := by
  simp only [statusBit, status, BitVec.getLsbD_append]
  simp

/-- Settles O59: each line assembles to its request by computation, and the status bits are the flags. -/
theorem pseudoInstructionsAreTheirExpansions : Obligations.PseudoInstructionsAreTheirExpansions := by
  intro par
  refine ⟨fun x => ⟨_, rfl, rfl, rfl, rfl⟩, fun x => ⟨_, rfl, rfl, rfl, rfl⟩, ⟨_, rfl, rfl, rfl⟩,
    fun i => ⟨_, rfl, rfl, rfl, rfl⟩, fun port ch => ?stat, fun s ch hpar => ?bits⟩
  case stat => cases ch <;> exact ⟨_, rfl, rfl, rfl⟩
  case bits =>
    subst hpar
    simp [isEmptyResult, isFullResult]

end Sys2Proof.Machine
end

section
/-! The ring channel commands, each with its whole effect: what an answered command and a raised error leave of the state,
and what a slot holds byte by byte (40_ring_channel.md R101 to R110). -/

namespace Sys2Proof.Machine

variable {i : Instr} {s s' : State} {r : Result}

/-! ### A command as one update of the state -/

/-- On the T port the frame's end wakes the F side (42_command_loop.md R162). -/
theorem exec_done_t (hport : s.bus.port = .t) (hp : legalPort i .t = true) (h : BodyDone i s s' r) :
    exec i s = .next { s' with
      fAsleep := false
      history := s'.history ++ [.cmd .t (encode i) (operandsRead i s.bus) r]
      result := some r } := by
  obtain ⟨-, -, -, hbus, -⟩ := bodyDone_frame h
  rw [exec_done (by simp [hport]) (hport ▸ hp) h]
  simp only [conclude, hbus, hport]

/-- On the F port the frame's end leaves the F side as the body did. -/
theorem exec_done_f (hport : s.bus.port = .f) (hawake : s.fAsleep = false) (hp : legalPort i .f = true)
    (h : BodyDone i s s' r) :
    exec i s = .next { s' with
      history := s'.history ++ [.cmd .f (encode i) (operandsRead i s.bus) r]
      result := some r } := by
  obtain ⟨-, -, -, hbus, -⟩ := bodyDone_frame h
  rw [exec_done (fun _ => hawake) (hport ▸ hp) h]
  simp only [conclude, hbus, hport]

/-- A command that only reads changes the wake, the history and the result, on either port. -/
theorem exec_done_unchanged (ha : s.bus.port = .f → s.fAsleep = false) (hp : legalPort i s.bus.port = true)
    (h : BodyDone i s s r) :
    exec i s = .next { s with
      fAsleep := false
      history := s.history ++ [.cmd s.bus.port (encode i) (operandsRead i s.bus) r]
      result := some r } := by
  cases hport : s.bus.port with
  | t => exact exec_done_t hport (hport ▸ hp) h
  | f => rw [exec_done_f hport (ha hport) (hport ▸ hp) h, ha hport]

/-- An error of the body on the F port sets `f_err` (60_exceptions.md R192). -/
theorem exec_raised_f {e : ResCode} (hport : s.bus.port = .f) (hawake : s.fAsleep = false) (hp : legalPort i .f = true)
    (h : bodyOf i s = .raised e) :
    exec i s = .next { s with
      fErr := true
      history := s.history ++ [.cmd .f (encode i) (operandsRead i s.bus) (.bare e)]
      result := some (.bare e) } := by
  rw [exec_eq_perform, perform_raised ((accepts_iff s).2 fun _ => hawake) (hport ▸ hp) h]
  simp only [takeError, conclude, raiseError, hport]

/-- The checks of RDSLOT, WRSLOT and REL fail (R106 to R108). -/
theorem ifHeld_raised (h : s.reqHeld = false ∨ s.bus.idxIn ≠ s.req.start) (body : Effect) :
    ifHeld s body = .raised .errProto := by
  unfold ifHeld
  obtain hfree | hidx := h
  · rw [if_pos hfree]
  · rw [if_pos hidx, ite_self]

/-! ### The bytes of a slot -/

/-- Byte `k` of a slot's packet is the byte at its address (20_memory.md R51). -/
theorem slotBytes_getElem? (par : Params) (c : Channel) (j : Nat) {k : Nat} (hk : k < par.p) :
    (c.slotBytes par j)[k]? = some (c.slots.read (slotAddr par j + k)) := by
  have hlen : k < (c.slotBytes par j).length := by rwa [slotBytes_length]
  rw [List.getElem?_eq_getElem hlen, ← List.getD_eq_getElem _ 0x00#8 hlen]
  exact congrArg some (readBytes_getD c.slots (slotAddr par j) par.p k hk)

/-- A packet stored in a slot: its bytes are the slot's, every other byte reads as before, and the memory stays canonical
(20_memory.md R52). -/
theorem storeSlot_bytes {par : Params} {c : Channel} {pkt : Packet} (hw : c.slots.wf = true) (hlen : pkt.length = par.p)
    (j : Nat) :
    (c.storeSlot par j pkt).slots.wf = true ∧
      (∀ k, k < par.p → pkt[k]? = some ((c.storeSlot par j pkt).slots.read (slotAddr par j + k))) ∧
      ∀ a, a < slotAddr par j ∨ slotAddr par j + par.p ≤ a → (c.storeSlot par j pkt).slots.read a = c.slots.read a := by
  refine ⟨writeBytes_wf hw _ _, fun k hk => ?inside, fun a ha => ?outside⟩
  case inside =>
    have hstored : (c.storeSlot par j pkt).slotBytes par j = pkt := by
      rw [slotBytes_storeSlot_same hw, fit_of_length hlen]
    rw [← slotBytes_getElem? par _ j hk, hstored]
  case outside => exact read_writeBytes_other _ (by rwa [fit_length]) _

/-! ### The commands -/

/-- Settles O15: NOP's body changes nothing. -/
theorem nopOnlyAnswersOk : Obligations.NopOnlyAnswersOk :=
  ⟨by decide, by decide, fun _ _ => rfl, fun ch s ha => exec_done_unchanged ha rfl (.nop ch s)⟩

/-- Settles O16: PUSH_REQ's body stores nothing when REQ is full, and else stores the packet in slot `end`. -/
theorem pushReqStoresOrDrops : Obligations.PushReqStoresOrDrops := by
  refine ⟨by decide, rfl, rfl, fun s hport hfull => ?full, fun s hport hlen hw hend hfree => ?ok⟩
  case full => exact exec_done_t hport rfl (.pushReqFull s ((channel_isFull_iff _ _).2 hfull))
  case ok =>
    have hexec := exec_done_t hport rfl (.pushReqOk s ((channel_notFull_iff _ _).2 hfree) hend)
    exact ⟨_, hexec, storeSlot_bytes hw hlen _⟩

/-- Settles O17: PUSH_RSP's body stores nothing when RSP is full, and else stores the packet in slot `end`. -/
theorem pushRspStoresOrDrops : Obligations.PushRspStoresOrDrops := by
  refine ⟨by decide, rfl, rfl, fun s hport hawake hfull => ?full, fun s hport hawake hlen hw hend hfree => ?ok⟩
  case full => exact exec_done_f hport hawake rfl (.pushRspFull s ((channel_isFull_iff _ _).2 hfull))
  case ok =>
    have hexec := exec_done_f hport hawake rfl (.pushRspOk s ((channel_notFull_iff _ _).2 hfree) hend)
    exact ⟨_, hexec, storeSlot_bytes hw hlen _⟩

/-- Settles O18: PEEK_REQ's body holds the head of a REQ that is not empty. -/
theorem peekReqHoldsTheHead : Obligations.PeekReqHoldsTheHead := by
  refine ⟨by decide, rfl, rfl, fun s hport hawake hempty => ?empty, fun s hport hawake hne => ?ok⟩
  case empty => exact exec_done_f hport hawake rfl (.peekEmpty s ((channel_isEmpty_iff _).2 hempty))
  case ok => exact exec_done_f hport hawake rfl (.peekOk s ((channel_notEmpty_iff _).2 hne))

/-- Settles O19: the checks fail, or RDSLOT_REQ's body reads slot `start`. -/
theorem rdslotReqReadsTheHeldSlot : Obligations.RdslotReqReadsTheHeldSlot := by
  refine ⟨by decide, rfl, rfl, fun s hport hawake hfail => ?error, fun s hport hawake hheld hidx hstart => ?ok⟩
  case error => exact exec_raised_f hport hawake rfl (ifHeld_raised hfail _)
  case ok =>
    exact ⟨_, exec_done_f hport hawake rfl (.rdslot s hheld hidx hstart), slotBytes_length _ _ _,
      fun k => slotBytes_getElem? s.par s.req s.req.start⟩

/-- Settles O20: the checks fail, or WRSLOT_REQ's body stores the packet in slot `start`. -/
theorem wrslotReqRewritesTheHeldSlot : Obligations.WrslotReqRewritesTheHeldSlot := by
  refine ⟨by decide, rfl, rfl, fun s hport hawake hfail => ?error, fun s hport hawake hheld hidx hlen hw hstart => ?ok⟩
  case error => exact exec_raised_f hport hawake rfl (ifHeld_raised hfail _)
  case ok =>
    have hexec := exec_done_f hport hawake rfl (.wrslot s hheld hidx hstart)
    exact ⟨_, hexec, storeSlot_bytes hw hlen _⟩

/-- Settles O21: the checks fail, or REL_REQ's body advances `start` and lets the slot go. -/
theorem relReqReleasesTheHeldSlot : Obligations.RelReqReleasesTheHeldSlot := by
  refine ⟨by decide, rfl, rfl, fun s hport hawake hfail => ?error, fun s hport hawake hheld hidx => ?ok⟩
  case error => exact exec_raised_f hport hawake rfl (ifHeld_raised hfail _)
  case ok => exact exec_done_f hport hawake rfl (.rel s hheld hidx)

/-- Settles O22: STAT_REQ's body changes nothing and answers the status word, whose fields are `status_fields`. -/
theorem statReqReturnsTheStatusWord : Obligations.StatReqReturnsTheStatusWord :=
  ⟨by decide, fun _ => rfl, fun s ha hstart hend =>
    ⟨_, exec_done_unchanged ha rfl (.statReq s), status_fields s .req hstart hend⟩⟩

/-- Settles O23: as STAT_REQ, on RSP, which has no held slot. -/
theorem statRspReturnsTheStatusWord : Obligations.StatRspReturnsTheStatusWord :=
  ⟨by decide, fun _ => rfl, fun s ha hstart hend =>
    ⟨_, exec_done_unchanged ha rfl (.statRsp s), status_fields s .rsp hstart hend⟩⟩

end Sys2Proof.Machine
end

section
/-! The transport commands with their whole effect, the command of each USB event, and a run of transmit-completes
(41_transport_bridge.md R140 to R145). -/

namespace Sys2Proof.Machine

variable {i : Instr} {s s' t u : State} {r : Result} {e : UsbEvent} {rest later : List Input}

/-! ### The commands -/

/-- A T-port command whose body emits one event: that event comes before the `CMD` event (10_state.md R31). -/
theorem exec_emits_t (hport : s.bus.port = .t) (hp : legalPort i .t = true) (h : BodyDone i s s' r) {ev : Event}
    (hhist : s'.history = s.history ++ [ev]) :
    exec i s = .next { s' with
      fAsleep := false
      history := s.history ++ [ev, .cmd .t (encode i) (operandsRead i s.bus) r]
      result := some r } := by
  rw [exec_done_t hport hp h, hhist, List.append_assoc]
  rfl

/-- An error of the body on the T port sets `t_err` and wakes the F side (60_exceptions.md R192; 42_command_loop.md
R162). -/
theorem exec_raised_t {c : ResCode} (hport : s.bus.port = .t) (hp : legalPort i .t = true)
    (h : bodyOf i s = .raised c) :
    exec i s = .next { s with
      tErr := true, fAsleep := false
      history := s.history ++ [.cmd .t (encode i) (operandsRead i s.bus) (.bare c)]
      result := some (.bare c) } := by
  rw [exec_eq_perform, perform_raised (accepts_t hport) (hport ▸ hp) h]
  simp only [takeError, conclude, raiseError, hport]

theorem txdoneBody_raised (hidle : s.busy = false) : txdoneBody s = .raised .errProto := if_pos hidle

/-- Settles O24: TXDONE's body finds nothing outstanding, or an empty RSP, or sends the packet in slot `start`. -/
theorem txdoneSendsOrGoesIdle : Obligations.TxdoneSendsOrGoesIdle := by
  refine ⟨by decide, rfl, rfl, fun s hport hidle => ?error, fun s hport hbusy hempty => ?idle,
    fun s hport hbusy hne hstart => ?ok⟩
  case error => exact exec_raised_t hport rfl (txdoneBody_raised hidle)
  case idle => exact exec_done_t hport rfl (.txdoneIdle s hbusy ((channel_isEmpty_iff _).2 hempty))
  case ok =>
    have hsend := BodyDone.txdoneOk s hbusy ((channel_notEmpty_iff _).2 hne) hstart
    exact ⟨_, exec_emits_t hport rfl hsend rfl, slotBytes_length _ _ _, fun k => slotBytes_getElem? s.par s.rsp s.rsp.start⟩

/-- Settles O26: SETUP's body changes nothing, or emits the request to clear the flagged stalls. -/
theorem setupRelaysTheStallFlags : Obligations.SetupRelaysTheStallFlags := by
  refine ⟨by decide, rfl, rfl, fun s hport hmask => ?quiet, fun s hport hmask => ?clear⟩
  case quiet =>
    have hops : operandsRead .setup s.bus = { stall := some 0b00#2 } := by rw [operandsRead, hmask]
    rw [exec_done_t hport rfl (.setupQuiet s hmask), hops]
    rfl
  case clear => exact exec_emits_t hport rfl (.setupClear s hmask) rfl

/-! ### The USB events -/

/-- The command the T agent issues for each USB event (R140, R141). -/
def eventInstr : UsbEvent → Instr
  | .receiveComplete _ => .pushReq
  | .transmitComplete => .txdone
  | .setup _ => .setup

theorem serve_eventRequest (e : UsbEvent) (s : State) :
    serve (eventRequest e) s = exec (eventInstr e) { s with bus := Request.latch s.par (eventRequest e) } := by
  cases e <;> exact serve_encode (decode_encode _)

/-- An event that is next and enabled is its command, on the buses of its request. -/
theorem step_event (h : s.inbox = .event e :: rest) (he : enabledInput s.fAsleep s.busy (.event e) = true) :
    step s = exec (eventInstr e) { s with inbox := rest, bus := Request.latch s.par (eventRequest e) } := by
  simp only [step, stepWith, nextMove_head h he, moveWith]
  exact serve_eventRequest e _

/-- While Sending, a transmit-complete that is next is TXDONE on the T port (R143; 60_exceptions.md R203). -/
theorem step_transmitComplete (hbusy : s.busy = true) (hinbox : s.inbox = .event .transmitComplete :: rest) :
    ∃ b, b.port = .t ∧ step s = exec .txdone { s with inbox := rest, bus := b } := ⟨_, rfl, step_event hinbox hbusy⟩

/-- Settles O9: a packet of `P` bytes passes the packet bus unchanged, the stall flags always do. -/
theorem usbEventsAreTransportCommands : Obligations.UsbEventsAreTransportCommands := by
  refine fun s rest => ⟨fun pkt hlen hinbox => ?receive, fun hbusy hinbox => ?transmit, fun m hinbox => ?setup⟩
  case receive => exact ⟨_, rfl, fit_of_length hlen, step_event hinbox rfl⟩
  case transmit => exact step_transmitComplete hbusy hinbox
  case setup => exact ⟨_, rfl, rfl, step_event hinbox rfl⟩

/-! ### A run of transmit-completes -/

theorem isEmpty_iff_contents_eq_nil {par : Params} {c : Channel} (hg : c.Good par) :
    c.isEmpty = true ↔ c.contents par = [] := by
  refine ⟨contents_of_empty, fun hnil => ?_⟩
  by_contra hne
  rw [contents_release hg (by simpa using hne)] at hnil
  cases hnil

/-- The transmitter received `pkts` on the way from `s` to `t`, and neither REQ nor the F agent moved. -/
def Transmits (s : State) (pkts : List Packet) (t : State) : Prop :=
  t.req = s.req ∧ t.loop = s.loop ∧ txPackets t.history = txPackets s.history ++ pkts

theorem Transmits.trans {p q : List Packet} (h : Transmits s p t) (k : Transmits t q u) : Transmits s (p ++ q) u := by
  obtain ⟨hreq, hloop, hsent⟩ := h
  obtain ⟨kreq, kloop, ksent⟩ := k
  exact ⟨kreq.trans hreq, kloop.trans hloop, by rw [ksent, hsent, List.append_assoc]⟩

/-- While Sending, a transmit-complete sends RSP's head (R143). -/
theorem step_transmitComplete_sends (hg : s.Good) (hbusy : s.busy = true) {pkt : Packet} {q : List Packet}
    (hq : s.rsp.contents s.par = pkt :: q) (hinbox : s.inbox = .event .transmitComplete :: rest) :
    ∃ t, step s = .next t ∧ t.Good ∧ t.busy = true ∧ t.rsp.contents t.par = q ∧ t.inbox = rest ∧
      Transmits s [pkt] t := by
  have ⟨_, hrsp, _⟩ := hg
  have ⟨hstart, _⟩ := hrsp
  have hne : s.rsp.isEmpty = false := by
    rw [← Bool.not_eq_true, isEmpty_iff_contents_eq_nil hrsp, hq]
    exact List.cons_ne_nil _ _
  obtain ⟨hhead, hrest⟩ := List.cons.inj ((contents_release hrsp hne).symm.trans hq)
  obtain ⟨b, hport, hstep⟩ := step_transmitComplete hbusy hinbox
  rw [exec_emits_t (s := { s with inbox := rest, bus := b }) hport rfl (.txdoneOk _ hbusy hne hstart) rfl] at hstep
  exact ⟨_, hstep, stepKeepsGoodStates _ _ hg hstep, hbusy, hrest, rfl, rfl, rfl, by simp [hhead]⟩

/-- While Sending, a transmit-complete on an empty RSP goes Idle (R143). -/
theorem step_transmitComplete_idles (hbusy : s.busy = true) (hempty : s.rsp.isEmpty = true)
    (hinbox : s.inbox = .event .transmitComplete :: rest) :
    ∃ t, step s = .next t ∧ t.busy = false ∧ t.rsp.isEmpty = true ∧ t.inbox = rest ∧ Transmits s [] t := by
  obtain ⟨b, hport, hstep⟩ := step_transmitComplete hbusy hinbox
  rw [exec_done_t (s := { s with inbox := rest, bus := b }) hport rfl (.txdoneIdle _ hbusy hempty)] at hstep
  exact ⟨_, hstep, rfl, hempty, rfl, rfl, rfl, by simp⟩

/-- A run begins with its first step. -/
theorem run_succ (h : step s = .next t) (k : Nat) : Sys2Proof.core.run (k + 1) s = Sys2Proof.core.run k t := by
  have hstep : Sys2Proof.core.step s = .next t := h
  simp only [Host.Core.run, hstep]

/-- While Sending, one transmit-complete for each packet of RSP and one more drain it: induction on the packets that RSP
holds (R144(c)). -/
theorem run_transmitCompletes (q : List Packet) (s : State) (hg : s.Good) (hbusy : s.busy = true)
    (hq : s.rsp.contents s.par = q)
    (hinbox : s.inbox = List.replicate (q.length + 1) (.event .transmitComplete) ++ later) :
    ∃ t, Sys2Proof.core.run (q.length + 1) s = .next t ∧ t.busy = false ∧ t.rsp.isEmpty = true ∧ t.inbox = later ∧
      Transmits s q t := by
  induction q generalizing s with
  | nil =>
    obtain ⟨-, hrsp, -⟩ := hg
    obtain ⟨t, hstep, hidle⟩ :=
      step_transmitComplete_idles hbusy ((isEmpty_iff_contents_eq_nil hrsp).2 hq) hinbox
    exact ⟨t, run_succ hstep 0, hidle⟩
  | cons pkt q ih =>
    obtain ⟨v, hstep, hgv, hbusyv, hqv, hinboxv, hsent⟩ := step_transmitComplete_sends hg hbusy hq hinbox
    obtain ⟨t, hrun, hidle, hempty, hlater, hdrained⟩ := ih v hgv hbusyv hqv hinboxv
    exact ⟨t, (run_succ hstep _).trans hrun, hidle, hempty, hlater, hsent.trans hdrained⟩

/-- Settles O56: FILL is the number of packets RSP holds. -/
theorem transmitCompletesDrainResponses : Obligations.TransmitCompletesDrainResponses := by
  intro s later hg hbusy hinbox
  rw [← contents_length] at hinbox ⊢
  obtain ⟨t, hrun, hidle, hempty, hlater, hreq, hloop, hsent⟩ := run_transmitCompletes _ s hg hbusy rfl hinbox
  exact ⟨t, hrun, hidle, hempty, hreq, hloop, hlater, hsent⟩

end Sys2Proof.Machine
end

section
/-! The foreground commands with their whole effect, and which moves suspend and wake the F side (42_command_loop.md R160
to R162). -/

namespace Sys2Proof.Machine

variable {i : Instr} {s s' t u : State} {r : Result}

/-! ### The commands -/

/-- An F-port command whose body emits one event: that event comes before the `CMD` event (10_state.md R31). -/
theorem exec_emits_f (hport : s.bus.port = .f) (hawake : s.fAsleep = false) (hp : legalPort i .f = true)
    (h : BodyDone i s s' r) {ev : Event} (hhist : s'.history = s.history ++ [ev]) :
    exec i s = .next { s' with
      history := s.history ++ [ev, .cmd .f (encode i) (operandsRead i s.bus) r]
      result := some r } := by
  rw [exec_done_f hport hawake hp h, hhist, List.append_assoc]
  rfl

/-- WAIT's body on an awake F side: it sleeps exactly when there is no work (R161). -/
theorem bodyDone_wait (hawake : s.fAsleep = false) :
    BodyDone .wait s { s with fAsleep := s.req.isEmpty || s.rsp.isFull s.par } (.bare .ok) := by
  cases hwork : s.req.isEmpty || s.rsp.isFull s.par with
  | true => exact .waitSleep s hwork
  | false =>
    rw [← hawake]
    exact .waitGo s hwork

/-- WAIT's condition in terms of the index registers (10_state.md R24). -/
theorem noWork_iff (s : State) :
    (s.req.isEmpty || s.rsp.isFull s.par) = true ↔
      s.req.start = s.req.endIdx ∨ (s.rsp.endIdx + 1) % s.par.n = s.rsp.start := by
  rw [Bool.or_eq_true, channel_isEmpty_iff, channel_isFull_iff, inc]

/-- Settles O25: KICK's body finds a transmission outstanding, or an empty RSP, or sends the packet in slot `start`. -/
theorem kickSendsWhenIdle : Obligations.KickSendsWhenIdle := by
  refine ⟨by decide, rfl, rfl, fun s hport hawake hbusy => ?busy, fun s hport hawake hidle hempty => ?empty,
    fun s hport hawake hidle hne hstart => ?ok⟩
  case busy => exact exec_done_f hport hawake rfl (.kickBusy s hbusy)
  case empty => exact exec_done_f hport hawake rfl (.kickEmpty s hidle ((channel_isEmpty_iff _).2 hempty))
  case ok =>
    have hsend := BodyDone.kickOk s hidle ((channel_notEmpty_iff _).2 hne) hstart
    exact ⟨_, exec_emits_f hport hawake rfl hsend rfl, slotBytes_length _ _ _,
      fun k => slotBytes_getElem? s.par s.rsp s.rsp.start⟩

/-! ### Suspension -/

/-- No two commands have the same word (30_encoding.md R71, R76). -/
theorem encode_injective : Function.Injective encode := fun i j h => by
  simpa only [decode_encode, Decoded.legal.injEq] using congrArg decode h

/-- Only WAIT's body suspends, and only without work (R161). -/
theorem bodyDone_fAsleep (h : BodyDone i s s' r) :
    s'.fAsleep = s.fAsleep ∨ (i = .wait ∧ (s.req.isEmpty || s.rsp.isFull s.par) = true) := by
  cases h
  case waitSleep hwork => exact .inr ⟨rfl, hwork⟩
  all_goals exact .inl rfl

/-- A command that suspends an awake F side is a WAIT on the F port that found no work. -/
theorem exec_suspends (h : exec i s = .next t) (hawake : s.fAsleep = false) (hasleep : t.fAsleep = true) :
    s.bus.port = .f ∧ i = .wait ∧ (s.req.isEmpty || s.rsp.isFull s.par) = true := by
  obtain ⟨-, rfl⟩ | ⟨-, e, -, rfl, -⟩ | ⟨-, hp, s', r, hbody, rfl⟩ := exec_inv h
  · simp [hawake] at hasleep
  · simp [takeError, hawake] at hasleep
  · rw [conclude_fAsleep, Bool.and_eq_true] at hasleep
    obtain ⟨-, hsleeps⟩ := hasleep
    obtain hsame | ⟨rfl, hwork⟩ := bodyDone_fAsleep hbody
    · simp [hsame, hawake] at hsleeps
    · exact ⟨port_eq_f hp rfl, rfl, hwork⟩

theorem serve_suspends {q : Request} (h : serve q s = .next t) (hawake : s.fAsleep = false) (hasleep : t.fAsleep = true) :
    q.port = .f ∧ q.cmd = 0x0B#8 ∧ (s.req.isEmpty || s.rsp.isFull s.par) = true := by
  obtain ⟨i, hdecode, hexec⟩ | ⟨_, -, ⟨-, rfl⟩ | ⟨-, rfl⟩⟩ := serve_inv h
  · obtain ⟨hport, rfl, hwork⟩ := exec_suspends hexec hawake hasleep
    exact ⟨hport, (encode_of_decode hdecode).symm, hwork⟩
  · simp [hawake] at hasleep
  · simp [takeError, hawake] at hasleep

/-- A move of the F agent performs at most one command, and that is a WAIT only at L0 (R164). -/
theorem loopMove_issues {process : Packet → Packet} (h : loopMove process s = .next t) :
    (∃ l, t = { s with loop := l }) ∨ ∃ i idx pkt u l, issueF i idx pkt s = .next u ∧ t = { u with loop := l } ∧
      (i = .wait → s.loop.label = .l0) := by
  rcases loopMove_inv h with ⟨-, rfl⟩ | ⟨-, rfl⟩ | ⟨u, hl, hu, rfl⟩ | ⟨u, -, hu, ht⟩ | ⟨u, -, hu, ht⟩ | ⟨u, -, hu, ht⟩ |
    ⟨u, -, hu, rfl⟩ | ⟨u, -, hu, rfl⟩ | ⟨u, -, hu, rfl⟩
  · exact .inl ⟨_, rfl⟩
  · exact .inl ⟨_, rfl⟩
  · exact .inr ⟨_, _, _, u, _, hu, rfl, fun _ => hl⟩
  · rcases afterPeek_inv ht with ⟨-, rfl⟩ | ⟨i, -, rfl⟩ <;> exact .inr ⟨_, _, _, u, _, hu, rfl, nofun⟩
  · obtain ⟨w, -, rfl⟩ := afterStat_inv ht
    exact .inr ⟨_, _, _, u, _, hu, rfl, nofun⟩
  · obtain ⟨pkt, -, rfl⟩ := afterRdslot_inv ht
    exact .inr ⟨_, _, _, u, _, hu, rfl, nofun⟩
  all_goals exact .inr ⟨_, _, _, u, _, hu, rfl, nofun⟩

/-- A move of the F agent that suspends it is the WAIT at L0. -/
theorem loopMove_suspends {process : Packet → Packet} (h : loopMove process s = .next t) (hawake : s.fAsleep = false)
    (hasleep : t.fAsleep = true) : s.loop.label = .l0 ∧ (s.req.isEmpty || s.rsp.isFull s.par) = true := by
  obtain ⟨l, rfl⟩ | ⟨i, idx, pkt, u, l, hu, rfl, hwait⟩ := loopMove_issues h
  · simp [hawake] at hasleep
  · obtain ⟨-, hcmd, hwork⟩ := serve_suspends hu hawake hasleep
    exact ⟨hwait (encode_injective hcmd), hwork⟩

/-- Settles O27: WAIT's body, and the only move of any agent that suspends. -/
theorem waitSuspendsWithoutWork : Obligations.WaitSuspendsWithoutWork := by
  refine ⟨by decide, rfl, rfl, fun s hport hawake => ?wait, fun s t h hawake hasleep => ?only⟩
  case wait =>
    have hwork := Bool.eq_iff_iff.2 ((noWork_iff s).trans decide_eq_true_iff.symm)
    rw [exec_done_f hport hawake rfl (bodyDone_wait hawake), hwork]
    rfl
  case only =>
    obtain ⟨-, rfl⟩ | ⟨rest, -, rfl⟩ | ⟨q, rest, hmove, hserve⟩ | ⟨rest, hmove, hline⟩ := step_inv h
    · simp [hawake] at hasleep
    · cases hasleep
    · obtain ⟨hport, hcmd, hwork⟩ := serve_suspends hserve hawake hasleep
      obtain hmove | ⟨e, -, rfl⟩ := hmove
      · exact ⟨(noWork_iff s).1 hwork, rest, .inl ⟨q, hmove, hport, hcmd⟩⟩
      · cases e <;> cases hport
    · obtain ⟨hlabel, hwork⟩ := loopMove_suspends hline hawake hasleep
      exact ⟨(noWork_iff s).1 hwork, rest, .inr ⟨hmove, hlabel⟩⟩

/-! ### Wake -/

theorem exec_awake_t (h : exec i s = .next t) (hport : s.bus.port = .t) : t.fAsleep = false := by
  obtain ⟨hwait, -⟩ | ⟨-, e, -, rfl, -⟩ | ⟨-, -, s', r, hbody, rfl⟩ := exec_inv h
  · simp [accepts_t hport] at hwait
  · simp [takeError, hport]
  · obtain ⟨-, -, -, hbus, -⟩ := bodyDone_frame hbody
    simp [hbus, hport]

/-- Every request on the T port, legal or not, leaves the F side awake (R162). -/
theorem serve_awake_t {q : Request} (h : serve q s = .next t) (hport : q.port = .t) : t.fAsleep = false := by
  obtain ⟨i, -, hexec⟩ | ⟨_, -, ⟨hwait, -⟩ | ⟨-, rfl⟩⟩ := serve_inv h
  · exact exec_awake_t hexec hport
  · simp [accepts_t (s := { s with bus := Request.latch s.par q }) hport] at hwait
  · simp [takeError, hport]

/-- A step is its next move (60_exceptions.md R202). -/
theorem step_of_nextMove {m : Input} {rest : List Input} (h : nextMove s = some (m, rest)) :
    step s = moveWith (Config.process s.par.p) m { s with inbox := rest } := by
  simp only [step, stepWith, h]

theorem eventRequest_port (e : UsbEvent) : (eventRequest e).port = .t := by cases e <;> rfl

/-- Settles O34: a T-port request is served awake, and a suspended F side has no move of its own. -/
theorem onlyTransportCommandsAndResetWake : Obligations.OnlyTransportCommandsAndResetWake := by
  refine ⟨fun s t q rest hmove hport h => ?command, fun s t e rest hmove h => ?event, fun s t h hasleep hawake => ?only⟩
  case command =>
    rw [step_of_nextMove hmove] at h
    exact serve_awake_t h hport
  case event =>
    rw [step_of_nextMove hmove] at h
    exact serve_awake_t h (eventRequest_port e)
  case only =>
    obtain ⟨-, rfl⟩ | ⟨rest, hmove, -⟩ | ⟨q, rest, hmove | ⟨e, hmove, -⟩, -⟩ | ⟨rest, hmove, -⟩ := step_inv h
    · simp [hasleep] at hawake
    · exact ⟨_, rest, hmove, .inr (.inr rfl)⟩
    · have henabled := (enabledInput_command _ _ q).1 (nextMove_enabled hmove)
      have hport : q.port = .t := by
        cases hq : q.port with
        | t => rfl
        | f => exact absurd hasleep (by simp [henabled hq])
      exact ⟨_, rest, hmove, .inl ⟨q, rfl, hport⟩⟩
    · exact ⟨_, rest, hmove, .inr (.inl ⟨e, rfl⟩)⟩
    · simp [awake_of_foreground hmove] at hasleep

end Sys2Proof.Machine
end

section
/-! The lines of the reference CommandLoop, each with its whole effect (42_command_loop.md R163, R164). -/

namespace Sys2Proof.Machine

variable {i : Instr} {s s' t : State} {r : Result} {rest : List Input}

/-! ### The lines -/

/-- A state with an F-port command answered and the F agent moved on. -/
def State.answered (s : State) (w : CmdWord) (ops : Operands) (r : Result) (l : Loop) : State :=
  { s with history := s.history ++ [.cmd .f w ops r], result := some r, loop := l }

/-- What each line of the program does but for the buses: one constructor per line and outcome, with its condition. -/
inductive LoopLine (s : State) : State → Prop
  | wait : s.loop.label = .l0 →
      LoopLine s (State.answered { s with fAsleep := s.req.isEmpty || s.rsp.isFull s.par } 0x0B#8 {} (.bare .ok)
        { s.loop with label := .l1 })
  | peekEmpty : s.loop.label = .l1 → s.req.isEmpty = true →
      LoopLine s (s.answered 0x02#8 {} (.bare .empty) { s.loop with label := .l0 })
  | peekOk : s.loop.label = .l1 → s.req.isEmpty = false →
      LoopLine s (State.answered { s with reqHeld := true } 0x02#8 {} { code := .ok, idxOut := some s.req.start }
        { s.loop with label := .l2, idx := s.req.start })
  | stat : s.loop.label = .l2 →
      LoopLine s (s.answered 0x16#8 {} { code := .ok, statOut := some (status s .rsp) }
        { s.loop with label := if s.rsp.isFull s.par then .l0 else .l3 })
  | rdslot : s.loop.label = .l3 → s.reqHeld = true → s.loop.idx = s.req.start → s.req.start < s.par.n →
      LoopLine s (s.answered 0x03#8 { idx := some s.req.start }
        { code := .ok, pktOut := some (s.req.slotBytes s.par s.req.start) }
        { s.loop with label := .l4, q := s.req.slotBytes s.par s.req.start })
  | process : s.loop.label = .l4 →
      LoopLine s { s with loop := { s.loop with label := .l5, r := respond s.par s.loop.q } }
  | rel : s.loop.label = .l5 → s.reqHeld = true → s.loop.idx = s.req.start → s.req.start < s.par.n →
      LoopLine s (State.answered { s with req := { s.req with start := inc s.par s.req.start }, reqHeld := false } 0x05#8
        { idx := some s.req.start } (.bare .ok) { s.loop with label := .l6 })
  | push : s.loop.label = .l6 → s.rsp.isFull s.par = false → s.rsp.endIdx < s.par.n → s.loop.r.length = s.par.p →
      LoopLine s (State.answered
        { s with rsp := { s.rsp.storeSlot s.par s.rsp.endIdx s.loop.r with endIdx := inc s.par s.rsp.endIdx } } 0x11#8
        { pkt := some s.loop.r } (.bare .ok) { s.loop with label := .l7 })
  | kickBusy : s.loop.label = .l7 → s.busy = true →
      LoopLine s (s.answered 0x19#8 {} (.bare .busy) { s.loop with label := .l8 })
  | kickEmpty : s.loop.label = .l7 → s.busy = false → s.rsp.isEmpty = true →
      LoopLine s (s.answered 0x19#8 {} (.bare .empty) { s.loop with label := .l8 })
  | kickOk : s.loop.label = .l7 → s.busy = false → s.rsp.isEmpty = false → s.rsp.start < s.par.n →
      LoopLine s (State.answered
        { s with
          rsp := { s.rsp with start := inc s.par s.rsp.start }
          busy := true
          history := s.history ++ [.tx (s.rsp.slotBytes s.par s.rsp.start)] } 0x19#8 {} (.bare .ok)
        { s.loop with label := .l8 })
  | restart : s.loop.label = .l8 → LoopLine s (s.goto .l0)

/-- The buses that the F agent's command with these operands leaves. -/
def fBus (i : Instr) (idx : Nat) (pkt : Packet) (s : State) : Request :=
  Request.latch s.par { port := .f, cmd := encode i, idxIn := idx, pktIn := pkt, stallIn := 0b00#2 }

/-- A command of an awake F agent whose body is done, and what the line does then. -/
theorem afterCommand_issueF {idx : Nat} {pkt : Packet} (hawake : s.fAsleep = false) (hp : legalPort i .f = true)
    (hb : BodyDone i { s with bus := fBus i idx pkt s } s' r) (k : State → Host.Outcome State Fault Refusal) :
    afterCommand (issueF i idx pkt s) k =
      k (s'.answered (encode i) (operandsRead i (fBus i idx pkt s)) r s'.loop) := by
  have hexec := exec_done_f (s := { s with bus := fBus i idx pkt s }) rfl hawake hp hb
  rw [issueF, serve_encode (decode_encode i)]
  exact congrArg (afterCommand · k) hexec

/-- An index in range passes the index bus (30_encoding.md R73). -/
theorem fBus_idxIn {idx : Nat} (h : idx < s.par.n) (pkt : Packet) : (fBus i idx pkt s).idxIn = idx :=
  Nat.mod_eq_of_lt (h.trans_le (idxW_bounds s.par).2.2)

/-- A packet of `P` bytes passes the packet bus (30_encoding.md R73). -/
theorem fBus_pktIn {pkt : Packet} (h : pkt.length = s.par.p) (idx : Nat) : (fBus i idx pkt s).pktIn = pkt :=
  fit_of_length h

/-- A line's move is what `LoopLine` says, on some buses. -/
theorem loopMove_of_line (hawake : s.fAsleep = false) (h : LoopLine s t) :
    ∃ b, loopMove (Config.process s.par.p) s = .next { t with bus := b } := by
  unfold loopMove
  cases h
  case wait hl =>
    rw [hl]
    exact ⟨_, afterCommand_issueF hawake rfl (bodyDone_wait hawake) _⟩
  case peekEmpty hl hempty =>
    rw [hl]
    exact ⟨_, afterCommand_issueF hawake rfl (.peekEmpty _ hempty) _⟩
  case peekOk hl hne =>
    rw [hl]
    exact ⟨_, afterCommand_issueF hawake rfl (.peekOk _ hne) _⟩
  case stat hl =>
    rw [hl]
    have hfull : statusBit (status s .rsp) 1 = s.rsp.isFull s.par := statusBit_status_full s .rsp
    rw [← hfull]
    exact ⟨_, afterCommand_issueF hawake rfl (.statRsp _) _⟩
  case rdslot hl hheld hidx hstart =>
    have hbus : (fBus .rdslotReq s.loop.idx [] s).idxIn = s.req.start := (fBus_idxIn (hidx ▸ hstart) []).trans hidx
    have hmove := afterCommand_issueF hawake rfl (.rdslot _ hheld hbus hstart) afterRdslot
    rw [operandsRead, hbus] at hmove
    rw [hl]
    exact ⟨_, hmove⟩
  case process hl =>
    rw [hl]
    exact ⟨s.bus, rfl⟩
  case rel hl hheld hidx hstart =>
    have hbus : (fBus .relReq s.loop.idx [] s).idxIn = s.req.start := (fBus_idxIn (hidx ▸ hstart) []).trans hidx
    have hmove := afterCommand_issueF hawake rfl (.rel _ hheld hbus) fun u => .next (u.goto .l6)
    rw [operandsRead, hbus] at hmove
    rw [hl]
    exact ⟨_, hmove⟩
  case push hl hfree hend hlen =>
    have hbus : (fBus .pushRsp 0 s.loop.r s).pktIn = s.loop.r := fBus_pktIn hlen 0
    have hmove := afterCommand_issueF (idx := 0) (pkt := s.loop.r) hawake rfl (.pushRspOk _ hfree hend)
      fun u => .next (u.goto .l7)
    simp only [operandsRead, hbus] at hmove
    rw [hl]
    exact ⟨_, hmove⟩
  case kickBusy hl hbusy =>
    rw [hl]
    exact ⟨_, afterCommand_issueF hawake rfl (.kickBusy _ hbusy) _⟩
  case kickEmpty hl hidle hempty =>
    rw [hl]
    exact ⟨_, afterCommand_issueF hawake rfl (.kickEmpty _ hidle hempty) _⟩
  case kickOk hl hidle hne hstart =>
    rw [hl]
    exact ⟨_, afterCommand_issueF hawake rfl (.kickOk _ hidle hne hstart) _⟩
  case restart hl =>
    rw [hl]
    exact ⟨s.bus, rfl⟩

/-- A step in which the F agent performs a line, but for the buses. -/
theorem step_of_line (hmove : nextMove s = some (.foreground, rest)) (h : LoopLine { s with inbox := rest } t) :
    ∃ b, step s = .next { t with bus := b } := by
  have hawake := awake_of_foreground hmove
  rw [step_foreground hmove]
  exact loopMove_of_line (s := { s with inbox := rest }) hawake h

/-! ### The obligations about the lines -/

/-- Settles O47: WAIT at L0, PEEK's two answers at L1, and STAT at L2. -/
theorem commandLoopWaitsAndPeeks : Obligations.CommandLoopWaitsAndPeeks := by
  refine fun s rest hmove => ⟨fun hl => ?l0, fun hl hempty => ?empty, fun hl hne => ?ok, fun hl => ?l2⟩
  case l0 =>
    obtain ⟨b, hstep⟩ := step_of_line hmove (.wait hl)
    exact ⟨_, hstep, rfl⟩
  case empty =>
    obtain ⟨b, hstep⟩ := step_of_line hmove (.peekEmpty hl hempty)
    exact ⟨_, hstep, rfl⟩
  case ok =>
    obtain ⟨b, hstep⟩ := step_of_line hmove (.peekOk hl hne)
    exact ⟨_, hstep, rfl⟩
  case l2 =>
    obtain ⟨b, hstep⟩ := step_of_line hmove (.stat hl)
    exact ⟨_, hstep, rfl⟩

/-- Settles O48: RDSLOT at L3 and REL at L5 with the head held and named; L4 is no command. -/
theorem commandLoopReadsProcessesAndReleases : Obligations.CommandLoopReadsProcessesAndReleases := by
  refine fun s rest hmove => ⟨fun hl hheld hidx hstart => ?l3, fun hl => ?l4, fun hl hheld hidx hstart => ?l5⟩
  case l3 =>
    obtain ⟨b, hstep⟩ := step_of_line hmove (.rdslot hl hheld hidx hstart)
    exact ⟨_, hstep, rfl⟩
  case l4 =>
    rw [step_foreground hmove]
    simp only [loopMove, hl]
    rfl
  case l5 =>
    obtain ⟨b, hstep⟩ := step_of_line hmove (.rel hl hheld hidx hstart)
    exact ⟨_, hstep, rfl⟩

/-- Settles O49: PUSH RSP at L6, KICK's three answers at L7; L8 is no command. -/
theorem commandLoopEnqueuesAndKicks : Obligations.CommandLoopEnqueuesAndKicks := by
  refine fun s rest hmove => ⟨fun hl hfree hend hlen => ?l6, fun hl hstart => ?l7, fun hl => ?l8⟩
  case l6 =>
    obtain ⟨b, hstep⟩ := step_of_line hmove (.push hl hfree hend hlen)
    exact ⟨_, hstep, rfl⟩
  case l7 =>
    cases hbusy : s.busy with
    | true =>
      obtain ⟨b, hstep⟩ := step_of_line hmove (.kickBusy hl hbusy)
      refine ⟨_, hstep, ?_⟩
      simp [State.answered, hbusy, Result.bare]
    | false =>
      cases hempty : s.rsp.isEmpty with
      | true =>
        obtain ⟨b, hstep⟩ := step_of_line hmove (.kickEmpty hl hbusy hempty)
        refine ⟨_, hstep, ?_⟩
        simp [State.answered, hbusy, Result.bare]
      | false =>
        obtain ⟨b, hstep⟩ := step_of_line hmove (.kickOk hl hbusy hempty hstart)
        exact ⟨_, hstep, rfl⟩
  case l8 =>
    rw [step_foreground hmove]
    simp only [loopMove, hl]
    rfl

/-! ### An F side without work -/

/-- With nothing offered, an awake F agent moves (60_exceptions.md R202, R204). -/
theorem nextMove_awake (hawake : s.fAsleep = false) (hinbox : s.inbox = []) :
    nextMove s = some (.foreground, []) := by
  simp [nextMove, takeEnabled, hawake, hinbox]

/-- Settles O58: PEEK finds REQ empty and goes to L0, where WAIT finds the same, sleeps and goes to L1. -/
theorem wokenWithoutWorkSleepsAgain : Obligations.WokenWithoutWorkSleepsAgain := by
  intro s hl hawake hinbox hempty
  obtain ⟨b, hpeek⟩ := step_of_line (nextMove_awake hawake hinbox) (.peekEmpty hl hempty)
  have hmove := nextMove_awake (s := { State.answered { s with inbox := [] } 0x02#8 {} (.bare .empty)
    { s.loop with label := .l0 } with bus := b }) hawake rfl
  obtain ⟨c, hwait⟩ := step_of_line hmove (.wait rfl)
  have hasleep : (s.req.isEmpty || s.rsp.isFull s.par) = true := by rw [hempty, Bool.true_or]
  have hloop : { s.loop with label := .l1 } = s.loop := by rw [← hl]
  refine ⟨_, (run_succ hpeek 1).trans (run_succ hwait 0), hasleep, hloop, ?quiet, rfl, rfl, rfl, rfl,
    List.append_assoc ..⟩
  case quiet => simp [nextMove, State.answered, takeEnabled, hempty]

end Sys2Proof.Machine
end

section
/-! Runs of the reference CommandLoop: what the loop knows at its labels is kept by every step, its response is never
dropped, and it never stops (42_command_loop.md R165, R166; 60_exceptions.md R203). -/

namespace Sys2Proof.Machine

variable {i : Instr} {s s' t : State} {r : Result} {q : Request} {rest : List Input} {process : Packet → Packet}

/-! ### What the loop knows, label by label -/

theorem atLabel_l2 (hl : s.loop.label = .l2) :
    s.AtLabel process ↔ s.reqHeld = true ∧ s.loop.idx = s.req.start := by
  rw [State.AtLabel, hl]

theorem atLabel_l3 (hl : s.loop.label = .l3) :
    s.AtLabel process ↔ s.reqHeld = true ∧ s.loop.idx = s.req.start ∧ s.rsp.isFull s.par = false := by
  rw [State.AtLabel, hl]

theorem atLabel_l4 (hl : s.loop.label = .l4) :
    s.AtLabel process ↔ s.reqHeld = true ∧ s.loop.idx = s.req.start ∧ s.rsp.isFull s.par = false ∧
      s.loop.q = s.req.slotBytes s.par s.req.start := by
  rw [State.AtLabel, hl]

theorem atLabel_l5 (hl : s.loop.label = .l5) :
    s.AtLabel process ↔ s.reqHeld = true ∧ s.loop.idx = s.req.start ∧ s.rsp.isFull s.par = false ∧
      s.loop.r = Packet.fit s.par.p (process (s.req.slotBytes s.par s.req.start)) := by
  rw [State.AtLabel, hl]

theorem atLabel_l6 (hl : s.loop.label = .l6) :
    s.AtLabel process ↔ s.rsp.isFull s.par = false ∧ s.loop.r.length = s.par.p := by
  rw [State.AtLabel, hl]

/-- The loop knows nothing at L0, L1, L7 and L8. -/
theorem atLabel_trivial (hl : s.loop.label = .l0 ∨ s.loop.label = .l1 ∨ s.loop.label = .l7 ∨ s.loop.label = .l8) :
    s.AtLabel process := by
  unfold State.AtLabel
  rcases hl with hl | hl | hl | hl <;> rw [hl] <;> trivial

/-! ### T-port commands do not disturb the loop -/

/-- What the loop relies on between its own lines: a held head stays held and unchanged, and a free slot in RSP stays
free. -/
def KeepsHeldAndFree (s t : State) : Prop :=
  t.par = s.par ∧
  (s.reqHeld = true → t.reqHeld = true ∧ t.req.start = s.req.start ∧
    t.req.slotBytes t.par t.req.start = s.req.slotBytes s.par s.req.start) ∧
  (s.rsp.isFull s.par = false → t.rsp.isFull t.par = false)

theorem keepsHeldAndFree_of_eq (hpar : t.par = s.par) (hreq : t.req = s.req) (hrsp : t.rsp = s.rsp)
    (hheld : t.reqHeld = s.reqHeld) : KeepsHeldAndFree s t := by
  unfold KeepsHeldAndFree
  rw [hpar, hreq, hrsp, hheld]
  exact ⟨rfl, fun h => ⟨h, rfl, rfl⟩, id⟩

/-- What the loop knows depends only on its own variables, the held head and the free slot. -/
theorem atLabel_of_keeps (h : KeepsHeldAndFree s t) (hloop : t.loop = s.loop) (hs : s.AtLabel process) :
    t.AtLabel process := by
  obtain ⟨hpar, hheld, hfree⟩ := h
  unfold State.AtLabel at hs ⊢
  rw [hloop]
  cases hl : s.loop.label <;> simp only [hl] at hs ⊢
  case l2 =>
    obtain ⟨hh, hidx⟩ := hs
    obtain ⟨hh', hstart, -⟩ := hheld hh
    exact ⟨hh', hstart ▸ hidx⟩
  case l3 =>
    obtain ⟨hh, hidx, hf⟩ := hs
    obtain ⟨hh', hstart, -⟩ := hheld hh
    exact ⟨hh', hstart ▸ hidx, hfree hf⟩
  case l4 =>
    obtain ⟨hh, hidx, hf, hq⟩ := hs
    obtain ⟨hh', hstart, hbytes⟩ := hheld hh
    exact ⟨hh', hstart ▸ hidx, hfree hf, hbytes ▸ hq⟩
  case l5 =>
    obtain ⟨hh, hidx, hf, hr⟩ := hs
    obtain ⟨hh', hstart, hbytes⟩ := hheld hh
    exact ⟨hh', hstart ▸ hidx, hfree hf, by rw [hbytes, hpar, hr]⟩
  case l6 =>
    obtain ⟨hf, hr⟩ := hs
    exact ⟨hfree hf, hpar ▸ hr⟩

/-- Releasing the head of a channel that is not full leaves it not full (10_state.md R24). -/
theorem notFull_setStart {par : Params} {c : Channel} (hg : c.Good par) (hne : c.isEmpty = false) :
    Channel.isFull par { c with start := inc par c.start } = false := by
  obtain ⟨hs, he, -⟩ := hg
  rw [channel_notEmpty_iff] at hne
  rw [channel_notFull_iff]
  show inc par c.endIdx ≠ inc par c.start
  rw [inc_eq hs, inc_eq he]
  split_ifs <;> omega

/-- A packet pushed to a channel that is not empty leaves the head as it is: slot `end` is free (20_memory.md R55). -/
theorem slotBytes_start_push {par : Params} {c : Channel} (hne : c.isEmpty = false) (pkt : Packet) :
    (c.storeSlot par c.endIdx pkt).slotBytes par c.start = c.slotBytes par c.start :=
  slotBytes_storeSlot_other ((channel_notEmpty_iff c).1 hne) c pkt

/-- A body that the T port may run (NOP, PUSH REQ, STAT, TXDONE or SETUP) keeps the held head and the free slot. -/
theorem bodyDone_keeps (h : BodyDone i s s' r) (hp : legalPort i .t = true) (hg : s.Good) : KeepsHeldAndFree s s' := by
  obtain ⟨-, hrsp, hheld⟩ := hg
  cases h
  case pushReqOk => exact ⟨rfl, fun hh => ⟨hh, rfl, slotBytes_start_push (hheld hh) _⟩, id⟩
  case txdoneOk _ hne _ => exact ⟨rfl, fun hh => ⟨hh, rfl, rfl⟩, fun _ => notFull_setStart hrsp hne⟩
  case nop | pushReqFull | statReq | statRsp | txdoneIdle | setupQuiet | setupClear =>
    exact keepsHeldAndFree_of_eq rfl rfl rfl rfl
  all_goals cases hp

/-- Idle implies an empty RSP (R166). -/
def State.IdleEmpty (s : State) : Prop := s.busy = false → s.rsp.isEmpty = true

/-- A body that the T port may run goes Idle only on an empty RSP and never fills an RSP (R143). -/
theorem bodyDone_idleEmpty (h : BodyDone i s s' r) (hp : legalPort i .t = true) (hs : s.IdleEmpty) : s'.IdleEmpty := by
  cases h
  case txdoneIdle hempty => exact fun _ => hempty
  case txdoneOk hbusy _ _ => exact fun hidle => absurd hidle (by simp [hbusy])
  case nop | pushReqFull | pushReqOk | statReq | statRsp | setupQuiet | setupClear => exact hs
  all_goals cases hp

theorem served_frame (h : Served s t) : t.par = s.par ∧ t.loop = s.loop ∧ t.inbox = s.inbox := by
  cases h with
  | waits => exact ⟨rfl, rfl, rfl⟩
  | error w ops e => simp [takeError]
  | done i s' r _ hbody =>
    obtain ⟨hpar, -, -, -, -, hloop, hinbox⟩ := bodyDone_frame hbody
    exact ⟨hpar, hloop, hinbox⟩

theorem served_keeps (h : Served s t) (hport : s.bus.port = .t) (hg : s.Good) :
    KeepsHeldAndFree s t ∧ (s.IdleEmpty → t.IdleEmpty) := by
  cases h with
  | waits => exact ⟨keepsHeldAndFree_of_eq rfl rfl rfl rfl, id⟩
  | error w ops e =>
    exact ⟨keepsHeldAndFree_of_eq (takeError_par ..) (takeError_req ..) (takeError_rsp ..) (takeError_reqHeld ..),
      by simp [State.IdleEmpty]⟩
  | done i s' r hp hbody =>
    rw [hport] at hp
    have hkeeps : KeepsHeldAndFree s s' := bodyDone_keeps hbody hp hg
    have hidle : s.IdleEmpty → s'.IdleEmpty := bodyDone_idleEmpty hbody hp
    exact ⟨hkeeps, hidle⟩

/-! ### The loop's own lines -/

/-- At every label the loop knows what its line needs. -/
theorem exists_line (hg : s.Good) (hat : s.AtLabel process) : ∃ t, LoopLine s t := by
  obtain ⟨⟨hreqStart, -⟩, ⟨hrspStart, hrspEnd, -⟩, -⟩ := hg
  cases hl : s.loop.label with
  | l0 => exact ⟨_, .wait hl⟩
  | l1 =>
    cases hempty : s.req.isEmpty with
    | true => exact ⟨_, .peekEmpty hl hempty⟩
    | false => exact ⟨_, .peekOk hl hempty⟩
  | l2 => exact ⟨_, .stat hl⟩
  | l3 =>
    obtain ⟨hheld, hidx, -⟩ := (atLabel_l3 hl).1 hat
    exact ⟨_, .rdslot hl hheld hidx hreqStart⟩
  | l4 => exact ⟨_, .process hl⟩
  | l5 =>
    obtain ⟨hheld, hidx, -⟩ := (atLabel_l5 hl).1 hat
    exact ⟨_, .rel hl hheld hidx hreqStart⟩
  | l6 =>
    obtain ⟨hfree, hlen⟩ := (atLabel_l6 hl).1 hat
    exact ⟨_, .push hl hfree hrspEnd hlen⟩
  | l7 =>
    cases hbusy : s.busy with
    | true => exact ⟨_, .kickBusy hl hbusy⟩
    | false =>
      cases hempty : s.rsp.isEmpty with
      | true => exact ⟨_, .kickEmpty hl hbusy hempty⟩
      | false => exact ⟨_, .kickOk hl hbusy hempty hrspStart⟩
  | l8 => exact ⟨_, .restart hl⟩

/-- What a line knows is what it found and what the line before it knew. -/
theorem line_atLabel (h : LoopLine s t) (hat : s.AtLabel (Config.process s.par.p)) :
    t.AtLabel (Config.process t.par.p) := by
  cases h
  case wait => exact atLabel_trivial (.inr (.inl rfl))
  case peekEmpty => exact atLabel_trivial (.inl rfl)
  case peekOk => exact (atLabel_l2 rfl).2 ⟨rfl, rfl⟩
  case stat hl =>
    obtain ⟨hheld, hidx⟩ := (atLabel_l2 hl).1 hat
    cases hfull : s.rsp.isFull s.par with
    | true => exact atLabel_trivial (.inl rfl)
    | false => exact (atLabel_l3 rfl).2 ⟨hheld, hidx, hfull⟩
  case rdslot hl _ _ _ =>
    obtain ⟨hheld, hidx, hfree⟩ := (atLabel_l3 hl).1 hat
    exact (atLabel_l4 rfl).2 ⟨hheld, hidx, hfree, rfl⟩
  case process hl =>
    obtain ⟨hheld, hidx, hfree, hq⟩ := (atLabel_l4 hl).1 hat
    exact (atLabel_l5 rfl).2 ⟨hheld, hidx, hfree, congrArg (respond s.par) hq⟩
  case rel hl _ _ _ =>
    obtain ⟨-, -, hfree, hr⟩ := (atLabel_l5 hl).1 hat
    exact (atLabel_l6 rfl).2 ⟨hfree, (congrArg List.length hr).trans (fit_length _ _)⟩
  case push => exact atLabel_trivial (.inr (.inr (.inl rfl)))
  case kickBusy | kickEmpty | kickOk => exact atLabel_trivial (.inr (.inr (.inr rfl)))
  case restart => exact atLabel_trivial (.inl rfl)

/-- Only the PUSH RSP at L6 fills RSP, and after the KICK at L7 the arbiter is Sending or RSP is empty (R166). -/
theorem line_idleEmpty (h : LoopLine s t) (hs : s.loop.label ≠ .l7 → s.IdleEmpty) :
    t.loop.label ≠ .l7 → t.IdleEmpty := by
  intro ht
  cases h
  case push => exact absurd rfl ht
  case kickBusy hbusy => exact fun hidle => absurd hidle (by simp [State.answered, hbusy])
  case kickEmpty hempty => exact fun _ => hempty
  case kickOk => exact nofun
  case wait hl | peekEmpty hl _ | peekOk hl _ | stat hl | rdslot hl _ _ _ | process hl | rel hl _ _ _ | restart hl =>
    exact hs (by simp [hl])

/-- No line touches the parameters, the sticky bits or the inbox. -/
theorem line_frame (h : LoopLine s t) : t.par = s.par ∧ t.tErr = s.tErr ∧ t.fErr = s.fErr ∧ t.inbox = s.inbox := by
  cases h <;> exact ⟨rfl, rfl, rfl, rfl⟩

/-! ### The step -/

/-- In a run of the reference CommandLoop the F agent performs its line. -/
theorem step_foreground_line (hinv : s.LoopInv) (hmove : nextMove s = some (.foreground, rest)) :
    ∃ u b, LoopLine { s with inbox := rest } u ∧ step s = .next { u with bus := b } := by
  obtain ⟨hg, -, hat, -⟩ := hinv
  obtain ⟨u, hline⟩ := exists_line (s := { s with inbox := rest }) hg hat
  obtain ⟨b, hstep⟩ := step_of_line hmove hline
  exact ⟨u, b, hline, hstep⟩

/-- INVERSION of a step of such a run: nothing to do, a reset, a T-port request served, or a line of the loop. -/
theorem loopInv_step_inv (hinv : s.LoopInv) (h : step s = .next t) :
    t = s ∨ ∃ rest, (∀ x ∈ rest, referenceInput x = true) ∧
      (t = { State.resetWith s.par with inbox := rest } ∨
        (∃ q, q.port = .t ∧ serve q { s with inbox := rest } = .next t) ∨
        ∃ u b, LoopLine { s with inbox := rest } u ∧ t = { u with bus := b }) := by
  have ⟨_, hinputs, _⟩ := hinv
  obtain ⟨-, rfl⟩ | ⟨rest, hmove, rfl⟩ | ⟨q, rest, hmove | ⟨e, hmove, rfl⟩, hserve⟩ | ⟨rest, hmove, -⟩ := step_inv h
  · exact .inl rfl
  all_goals
    have hrest : ∀ x ∈ rest, referenceInput x = true := fun x hx => hinputs x (nextMove_rest hmove x hx)
    refine .inr ⟨rest, hrest, ?_⟩
  · exact .inl rfl
  · have hq := hinputs _ ((nextMove_mem hmove).resolve_right nofun)
    exact .inr (.inl ⟨q, by simpa [referenceInput] using hq, hserve⟩)
  · exact .inr (.inl ⟨_, eventRequest_port e, hserve⟩)
  · obtain ⟨u, b, hline, hstep⟩ := step_foreground_line hinv hmove
    rw [hstep] at h
    cases h
    exact .inr (.inr ⟨u, b, hline, rfl⟩)

/-- Settles O50: T-port commands do not disturb the loop, and each of its lines hands on what the next one needs. -/
theorem stepKeepsTheCommandLoopInvariant : Obligations.StepKeepsTheCommandLoopInvariant := by
  intro s t hinv h
  have ⟨hg, _, hat, hidle⟩ := hinv
  have hgood := stepKeepsGoodStates s t hg h
  obtain rfl | ⟨rest, hrest, rfl | ⟨q, hport, hserve⟩ | ⟨u, b, hline, rfl⟩⟩ := loopInv_step_inv hinv h
  · exact hinv
  · exact ⟨hgood, hrest, trivial, fun _ _ => rfl⟩
  · obtain ⟨hkeeps, hidle'⟩ := served_keeps (served_of_serve hserve) hport hg
    obtain ⟨hpar, hloop, hinbox⟩ := served_frame (served_of_serve hserve)
    refine ⟨hgood, hinbox ▸ hrest, ?_, fun hl => hidle' (hidle (hloop ▸ hl))⟩
    rw [hpar]
    exact atLabel_of_keeps hkeeps hloop hat
  · obtain ⟨-, -, -, hinbox⟩ := line_frame hline
    have hinputs : ∀ x ∈ u.inbox, referenceInput x = true := by rwa [hinbox]
    have hat' := line_atLabel hline hat
    have hidle' := line_idleEmpty hline hidle
    exact ⟨hgood, hinputs, hat', hidle'⟩

/-- Settles O51: at L6 RSP is not full and `r` is a packet, so the line is a PUSH RSP that stores it. -/
theorem commandLoopNeverDropsAResponse : Obligations.CommandLoopNeverDropsAResponse := by
  intro s rest hinv hl hmove
  obtain ⟨⟨-, hrsp, -⟩, -, hat, -⟩ := hinv
  obtain ⟨hfree, hlen⟩ := (atLabel_l6 hl).1 hat
  have ⟨_, hend, _⟩ := hrsp
  obtain ⟨b, hstep⟩ := step_of_line hmove (.push hl hfree hend hlen)
  exact ⟨_, hstep, rfl, contents_push_of_length hrsp hfree hlen, rfl⟩

/-! ### The run never stops -/

theorem serve_not_refused (q : Request) (s : State) (e : Refusal) : serve q s ≠ .refused e := by
  unfold serve serveBus
  split
  · exact exec_not_refused _ _ e
  · unfold performIllegal
    split_ifs <;> simp

/-- In a good state every request is answered. -/
theorem exists_serve (hg : s.Good) (q : Request) : ∃ t, serve q s = .next t := by
  cases h : serve q s with
  | next t => exact ⟨t, rfl⟩
  | fault f => exact absurd h (serve_not_fault hg q f)
  | refused e => exact absurd h (serve_not_refused q s e)

/-- A T-port request leaves the F port's sticky bit (60_exceptions.md R192). -/
theorem served_fErr_t (h : Served s t) (hport : s.bus.port = .t) : t.fErr = s.fErr := by
  cases h with
  | waits => rfl
  | error w ops e => simp [hport]
  | done i s' r _ hbody =>
    obtain ⟨-, -, hfErr, -⟩ := bodyDone_frame hbody
    exact hfErr

/-- Within the environment's contract a USB event ends in no error: its command may be issued on the T port, and TXDONE
finds a transmission outstanding (60_exceptions.md R203). -/
theorem serve_event_tErr {e : UsbEvent} (h : serve (eventRequest e) s = .next t)
    (hbusy : e = .transmitComplete → s.busy = true) : t.tErr = s.tErr := by
  rw [serve_eventRequest] at h
  obtain ⟨-, rfl⟩ | ⟨-, c, -, -, ⟨hp, -⟩ | ⟨-, -, hraised⟩⟩ | ⟨-, -, s', r, hbody, rfl⟩ := exec_inv h
  · rfl
  · cases e <;> cases hp
  · obtain ⟨-, ⟨hi, hidle⟩ | ⟨hi, -⟩⟩ := bodyRaised_of hraised
    · cases e with
      | transmitComplete => exact absurd hidle (by simp [hbusy rfl])
      | _ => cases hi
    · cases e <;> simp [eventInstr] at hi
  · obtain ⟨-, htErr, -⟩ := bodyDone_frame hbody
    exact htErr

/-- Settles O52: every request is answered in a good state, and the loop's line always applies and is no error. -/
theorem commandLoopNeverStops : Obligations.CommandLoopNeverStops := by
  intro s hinv
  have ⟨hg, hinputs, _⟩ := hinv
  cases hmove : nextMove s with
  | none => exact ⟨s, by simp only [step, stepWith, hmove], id, fun _ => id⟩
  | some m =>
    obtain ⟨m, rest⟩ := m
    cases m with
    | command q =>
      have hmem := (nextMove_mem hmove).resolve_right nofun
      have hport : q.port = .t := by simpa [referenceInput] using hinputs _ hmem
      obtain ⟨t, hserve⟩ := exists_serve (s := { s with inbox := rest }) hg q
      have hfErr := served_fErr_t (served_of_serve hserve) hport
      exact ⟨t, (step_of_nextMove hmove).trans hserve, hfErr.symm.trans,
        fun hcontract => absurd (hcontract _ hmem) nofun⟩
    | event e =>
      obtain ⟨t, hserve⟩ := exists_serve (s := { s with inbox := rest }) hg (eventRequest e)
      have hfErr := served_fErr_t (served_of_serve hserve) (eventRequest_port e)
      have hbusy : e = .transmitComplete → s.busy = true := fun he => busy_of_transmitComplete (he ▸ hmove)
      have htErr := serve_event_tErr hserve hbusy
      exact ⟨t, (step_of_nextMove hmove).trans hserve, hfErr.symm.trans, fun _ => htErr.symm.trans⟩
    | foreground =>
      obtain ⟨u, b, hline, hstep⟩ := step_foreground_line hinv hmove
      obtain ⟨-, htErr, hfErr, -⟩ := line_frame hline
      exact ⟨_, hstep, hfErr.symm.trans, fun _ => htErr.symm.trans⟩
    | reset => exact ⟨_, step_of_nextMove hmove, nofun, fun _ => nofun⟩

end Sys2Proof.Machine
end

section
/-! Requests and responses, paired one to one and in order along every run of the reference CommandLoop
(42_command_loop.md R167; 20_memory.md R62). -/

namespace Sys2Proof.Machine

variable {i : Instr} {s s' t : State} {r : Result}

/-! ### What is paired -/

/-- The part of the pairing that the transmitter has no share in: REQ holds the stored requests not yet released, and the
responses stored or in hand are those to the released ones. -/
def State.Paired (s : State) : Prop :=
  releasedReq s.history ≤ (storedReq s.history).length ∧
  s.req.contents s.par = (storedReq s.history).drop (releasedReq s.history) ∧
  storedRsp s.history ++ s.pendingResponse = ((storedReq s.history).take (releasedReq s.history)).map (respond s.par)

theorem pairInv_iff : s.PairInv ↔ s.LoopInv ∧ s.Paired ∧ s.ResponsesInOrder := by
  simp only [State.PairInv, State.Paired, State.ResponsesInOrder, and_assoc]

/-- Requests stored and responses given do not change the pairing of the rest. -/
theorem paired_of_pushed {new : List Packet} (hs : s.Paired) (hpar : t.par = s.par)
    (hstored : storedReq t.history = storedReq s.history ++ new)
    (hreleased : releasedReq t.history = releasedReq s.history)
    (hreq : t.req.contents t.par = s.req.contents s.par ++ new)
    (hrsp : storedRsp t.history ++ t.pendingResponse = storedRsp s.history ++ s.pendingResponse) : t.Paired := by
  obtain ⟨hle, hcontents, hpaired⟩ := hs
  unfold State.Paired
  rw [hreleased, hstored, hreq, hrsp, hpar, List.drop_append_of_le_length hle, List.take_append_of_le_length hle,
    hcontents, List.length_append]
  exact ⟨Nat.le_add_right_of_le hle, rfl, hpaired⟩

/-! ### T-port commands -/

/-- The packets a command adds to those REQ stored. -/
def newlyStoredReq (i : Instr) (r : Result) (pkt : Packet) : List Packet :=
  if i = .pushReq ∧ r.code = .ok then [pkt] else []

/-- The frame of a body that is done records a stored request exactly for a PUSH REQ answered OK. -/
theorem storedReq_conclude (hp : legalPort i s.bus.port = true) (hbody : BodyDone i s s' r) :
    storedReq (conclude (encode i) (operandsRead i s.bus) r s').history =
      storedReq s.history ++ newlyStoredReq i r s.bus.pktIn := by
  obtain ⟨-, -, -, hbus, -⟩ := bodyDone_frame hbody
  have hword : encode i = 0x01#8 ↔ i = .pushReq := encode_injective.eq_iff' rfl
  rw [conclude_history, storedReq, storedBy_append, bodyDone_storedBy hbody, storedBy_cmd, hbus]
  by_cases hi : i = .pushReq
  · subst hi
    simp [newlyStoredReq, port_eq_t hp rfl, operandsRead, storedReq, hword]
  · simp [newlyStoredReq, hi, storedReq, hword]

/-- A body that the T port may run adds to REQ what it stores and removes nothing. -/
theorem bodyDone_reqContents_t (h : BodyDone i s s' r) (hp : legalPort i .t = true) (hg : s.Good)
    (hlen : s.bus.pktIn.length = s.par.p) :
    s'.req.contents s'.par = s.req.contents s.par ++ newlyStoredReq i r s.bus.pktIn := by
  obtain ⟨hreq, -, -⟩ := hg
  cases h
  case pushReqOk hfree _ => exact contents_push_of_length hreq hfree hlen
  case nop | pushReqFull | statReq | statRsp | txdoneIdle | txdoneOk | setupQuiet | setupClear =>
    simp [newlyStoredReq]
  all_goals cases hp

/-- A body that the T port may run stores no response. -/
theorem newlyStoredRsp_t (hp : legalPort i .t = true) (r : Result) (pkt : Packet) : newlyStoredRsp i r pkt = [] :=
  if_neg fun ⟨hi, _⟩ => by subst hi; cases hp

theorem pendingResponse_congr (hloop : t.loop = s.loop) : t.pendingResponse = s.pendingResponse := by
  rw [State.pendingResponse, State.pendingResponse, hloop]

theorem served_paired (h : Served s t) (hport : s.bus.port = .t) (hg : s.Good) (hlen : s.bus.pktIn.length = s.par.p)
    (hs : s.Paired) : t.Paired := by
  obtain ⟨hpar, hloop, -⟩ := served_frame h
  have hpending := pendingResponse_congr hloop
  cases h with
  | waits => exact hs
  | error w ops e he =>
    have hok : e ≠ .ok := by rintro rfl; cases he
    refine paired_of_pushed (new := []) hs hpar ?stored ?released ?req ?rsp
    case stored => simp [storedReq, storedBy_cmd, hok]
    case released => simp [releasedReq, countCmd_cmd, hok]
    case req => simp
    case rsp => simp [storedRsp, storedBy_cmd, hok, hpending]
  | done i s' r hp hbody =>
    obtain ⟨-, -, -, hbus, -⟩ := bodyDone_frame hbody
    have hstored := storedReq_conclude hp hbody
    have hrsp := storedRsp_conclude hp hbody
    rw [hport] at hp
    have hreq := bodyDone_reqContents_t hbody hp hg hlen
    refine paired_of_pushed hs hpar hstored ?released hreq ?rsp
    case released => simp [releasedReq, bodyDone_countCmd hbody, countCmd_cmd, hbus, hport]
    case rsp => rw [hrsp, newlyStoredRsp_t hp, List.append_nil, hpending]

/-! ### The loop's lines -/

/-- Taking the first packet of what is left. -/
theorem take_succ_of_drop {l q : List Packet} {k : Nat} {pkt : Packet} (h : l.drop k = pkt :: q) :
    k + 1 ≤ l.length ∧ l.drop (k + 1) = q ∧ l.take (k + 1) = l.take k ++ [pkt] := by
  have hk : k < l.length := by
    by_contra hout
    rw [List.drop_eq_nil_of_le (not_lt.1 hout)] at h
    cases h
  rw [List.drop_eq_getElem_cons hk] at h
  obtain ⟨rfl, hq⟩ := List.cons.inj h
  exact ⟨hk, hq, List.take_succ_eq_append_getElem hk⟩

/-- A released request is paired with the response that joins those stored or in hand. -/
theorem paired_of_released {pkt : Packet} (hs : s.Paired) (hpar : t.par = s.par)
    (hstored : storedReq t.history = storedReq s.history) (hreleased : releasedReq t.history = releasedReq s.history + 1)
    (hreq : s.req.contents s.par = pkt :: t.req.contents t.par)
    (hrsp : storedRsp t.history ++ t.pendingResponse = storedRsp s.history ++ s.pendingResponse ++ [respond s.par pkt]) :
    t.Paired := by
  obtain ⟨-, hcontents, hpaired⟩ := hs
  obtain ⟨hle, hdrop, htake⟩ := take_succ_of_drop (hcontents.symm.trans hreq)
  unfold State.Paired
  rw [hreleased, hstored, hrsp, hpaired, htake, hdrop, hpar, List.map_append]
  exact ⟨hle, rfl, rfl⟩

theorem pendingResponse_of_ne (hl : s.loop.label ≠ .l6) : s.pendingResponse = [] := by
  unfold State.pendingResponse
  split
  · next h => exact absurd h hl
  · rfl

/-- The pairing does not look at anything else. -/
theorem paired_of_same (hs : s.Paired) (hpar : t.par = s.par) (hreq : t.req = s.req)
    (hstored : storedReq t.history = storedReq s.history) (hreleased : releasedReq t.history = releasedReq s.history)
    (hrsp : storedRsp t.history ++ t.pendingResponse = storedRsp s.history ++ s.pendingResponse) : t.Paired :=
  paired_of_pushed (new := []) hs hpar (by rw [hstored, List.append_nil]) hreleased
    (by rw [hpar, hreq, List.append_nil]) hrsp

/-- Only REL leads to L6. -/
theorem line_to_l6 (h : LoopLine s t) (ht : t.loop.label = .l6) : s.loop.label = .l5 := by
  cases h
  case rel hl _ _ _ => exact hl
  case stat =>
    simp only [State.answered] at ht
    split_ifs at ht
  all_goals cases ht

/-- REL moves the oldest request from REQ to the released ones, with its response in hand; PUSH RSP stores that response;
every other line leaves both lists (R167). -/
theorem line_paired (h : LoopLine s t) (hg : s.Good) (hat : s.AtLabel (Config.process s.par.p)) (hs : s.Paired) :
    t.Paired := by
  obtain ⟨hreq, -, hheldFilled⟩ := hg
  have hto := line_to_l6 h
  cases h
  case rel hl hheld hidx hstart =>
    obtain ⟨-, -, -, hr⟩ := (atLabel_l5 hl).1 hat
    have hcontents := contents_release hreq (hheldFilled hheld)
    refine paired_of_released hs rfl ?stored ?released hcontents ?rsp
    case stored => simp [State.answered, storedReq, storedBy_cmd]
    case released => simp [State.answered, releasedReq, countCmd_cmd]
    case rsp =>
      rw [pendingResponse_of_ne (s := s) (by simp [hl]), respond, ← hr]
      simp [State.answered, storedRsp, storedBy_cmd, State.pendingResponse]
  case push hl hfree hend hlen =>
    have hpending : s.pendingResponse = [s.loop.r] := by rw [State.pendingResponse, hl]
    refine paired_of_same hs rfl rfl ?stored ?released ?rsp
    case stored => simp [State.answered, storedReq, storedBy_cmd]
    case released => simp [State.answered, releasedReq, countCmd_cmd]
    case rsp =>
      rw [hpending]
      simp [State.answered, storedRsp, storedBy_cmd, State.pendingResponse]
  case wait hl | peekEmpty hl _ | peekOk hl _ | stat hl | rdslot hl _ _ _ | process hl | kickBusy hl _ | kickEmpty hl _ _ |
      kickOk hl _ _ _ | restart hl =>
    refine paired_of_same hs rfl rfl ?stored ?released ?rsp
    case stored => simp [State.answered, State.goto, storedReq, storedBy_cmd]
    case released => simp [State.answered, State.goto, releasedReq, countCmd_cmd]
    case rsp =>
      have ht := pendingResponse_of_ne fun h6 => by simpa [hl] using hto h6
      have hs := pendingResponse_of_ne (s := s) (by simp [hl])
      refine congrArg₂ (· ++ ·) ?_ (ht.trans hs.symm)
      simp [State.answered, State.goto, storedRsp, storedBy_cmd]

/-! ### The step -/

/-- Settles O53: the loop's invariant and the order of the responses are kept, and every step keeps the pairing of the
rest. -/
theorem stepKeepsRequestsAndResponsesPaired : Obligations.StepKeepsRequestsAndResponsesPaired := by
  intro s t hs h
  obtain ⟨hinv, hpaired, horder⟩ := pairInv_iff.1 hs
  have ⟨hg, _, hat, _⟩ := hinv
  refine pairInv_iff.2 ⟨stepKeepsTheCommandLoopInvariant s t hinv h, ?paired,
    responsesLeaveInTheOrderStored s t hg horder h⟩
  obtain rfl | ⟨rest, -, rfl | ⟨q, hport, hserve⟩ | ⟨u, b, hline, rfl⟩⟩ := loopInv_step_inv hinv h
  · exact hpaired
  · obtain ⟨-, hreset, -⟩ := pairInv_iff.1 (pairInv_resetWith s.par)
    exact hreset
  · exact served_paired (served_of_serve hserve) hport hg (fit_length _ _) hpaired
  · have hu := line_paired hline hg hat hpaired
    exact hu

/-- What the transmitter got is the beginning of the responses to the stored requests. -/
theorem txPackets_prefix_of_pairInv (hs : s.PairInv) :
    txPackets s.history <+: (storedReq s.history).map (respond s.par) := by
  obtain ⟨-, -, -, hpaired, horder⟩ := hs
  calc txPackets s.history
      <+: txPackets s.history ++ s.rsp.contents s.par := List.prefix_append ..
    _ <+: storedRsp s.history ++ s.pendingResponse := horder ▸ List.prefix_append ..
    _ = ((storedReq s.history).take (releasedReq s.history)).map (respond s.par) := hpaired
    _ <+: (storedReq s.history).map (respond s.par) := (List.take_prefix ..).map _

/-- Settles O54: the step keeps the pairing, which says what was transmitted. -/
theorem transmissionsAnswerRequestsInOrder : Obligations.TransmissionsAnswerRequestsInOrder :=
  fun s t hs h => txPackets_prefix_of_pairInv (stepKeepsRequestsAndResponsesPaired s t hs h)

end Sys2Proof.Machine
end

section
/-! The reference CommandLoop without interruption: from L1 to L0 in eight steps, with one request answered
(42_command_loop.md R167; 60_exceptions.md R204). -/

namespace Sys2Proof.Machine

variable {s t u : State}

/-! ### Runs of the F agent alone -/

/-- Two steps lead from one state to the other, whatever is run after them. -/
def TwoSteps (s t : State) : Prop := ∀ k, Sys2Proof.core.run (k + 2) s = Sys2Proof.core.run k t

theorem twoSteps_of_step (h : step s = .next u) (h' : step u = .next t) : TwoSteps s t :=
  fun k => (run_succ h (k + 1)).trans (run_succ h' k)

/-- The F agent is awake in a run of the reference CommandLoop, and nothing is offered from outside. -/
def State.Undisturbed (s : State) : Prop := s.LoopInv ∧ s.fAsleep = false ∧ s.inbox = []

/-- Undisturbed, a line that does not suspend is the step, and leaves the F agent undisturbed. -/
theorem State.Undisturbed.step_line (h : s.Undisturbed) (hline : LoopLine s u) (hawake : u.fAsleep = s.fAsleep) :
    ∃ b, step s = .next { u with bus := b } ∧ State.Undisturbed { u with bus := b } := by
  obtain ⟨hinv, hs, hinbox⟩ := h
  obtain ⟨-, -, -, hu⟩ := line_frame hline
  have hline : LoopLine { s with inbox := [] } u := by rwa [← hinbox]
  obtain ⟨b, hstep⟩ := step_of_line (nextMove_awake hs hinbox) hline
  exact ⟨b, hstep, stepKeepsTheCommandLoopInvariant _ _ hinv hstep, hawake.trans hs, hu.trans hinbox⟩

/-- What the lines before REL leave: the channels, the arbiter, the sticky bits and what was transmitted. -/
def Quiet (s t : State) : Prop :=
  t.par = s.par ∧ t.req = s.req ∧ t.rsp = s.rsp ∧ t.busy = s.busy ∧ t.tErr = s.tErr ∧ t.fErr = s.fErr ∧
    txPackets t.history = txPackets s.history

theorem Quiet.trans (h : Quiet s t) (k : Quiet t u) : Quiet s u := by
  obtain ⟨hpar, hreq, hrsp, hbusy, htErr, hfErr, hsent⟩ := h
  obtain ⟨kpar, kreq, krsp, kbusy, ktErr, kfErr, ksent⟩ := k
  exact ⟨kpar.trans hpar, kreq.trans hreq, krsp.trans hrsp, kbusy.trans hbusy, ktErr.trans htErr, kfErr.trans hfErr,
    ksent.trans hsent⟩

/-! ### From L1 to L5: the request is found, read and processed -/

theorem run_l1_l3 (h : s.Undisturbed) (hl : s.loop.label = .l1) (hne : s.req.isEmpty = false)
    (hfree : s.rsp.isFull s.par = false) :
    ∃ t, TwoSteps s t ∧ t.Undisturbed ∧ t.loop.label = .l3 ∧ Quiet s t := by
  obtain ⟨b, hpeek, hb⟩ := h.step_line (.peekOk hl hne) rfl
  obtain ⟨c, hstat, hc⟩ := hb.step_line (.stat rfl) rfl
  refine ⟨_, twoSteps_of_step hpeek hstat, hc, ?label, rfl, rfl, rfl, rfl, rfl, rfl, ?sent⟩
  case label => simp [State.answered, hfree]
  case sent => simp [State.answered]

theorem run_l3_l5 (h : s.Undisturbed) (hl : s.loop.label = .l3) :
    ∃ t, TwoSteps s t ∧ t.Undisturbed ∧ t.loop.label = .l5 ∧ Quiet s t := by
  have ⟨⟨⟨⟨hstart, _⟩, _⟩, _, hat, _⟩, _⟩ := h
  obtain ⟨hheld, hidx, -⟩ := (atLabel_l3 hl).1 hat
  obtain ⟨b, hread, hb⟩ := h.step_line (.rdslot hl hheld hidx hstart) rfl
  obtain ⟨c, hprocess, hc⟩ := hb.step_line (.process rfl) rfl
  refine ⟨_, twoSteps_of_step hread hprocess, hc, rfl, rfl, rfl, rfl, rfl, rfl, rfl, ?sent⟩
  case sent => simp [State.answered]

/-! ### From L5 to L7: the request is released and its response stored -/

theorem run_l5_l7 (h : s.Undisturbed) (hl : s.loop.label = .l5) :
    ∃ t q, TwoSteps s t ∧ t.Undisturbed ∧ t.loop.label = .l7 ∧
      t.par = s.par ∧ t.tErr = s.tErr ∧ t.fErr = s.fErr ∧ t.busy = s.busy ∧ t.reqHeld = false ∧
      s.req.contents s.par = q :: t.req.contents t.par ∧
      t.rsp.contents t.par = s.rsp.contents s.par ++ [respond s.par q] ∧ t.rsp.isEmpty = false ∧
      txPackets t.history = txPackets s.history := by
  have ⟨⟨⟨hreq, hrsp, hheldFilled⟩, _, hat, _⟩, _⟩ := h
  have ⟨hstart, _⟩ := hreq
  have ⟨_, hend, _⟩ := hrsp
  obtain ⟨hheld, hidx, hfree, hr⟩ := (atLabel_l5 hl).1 hat
  have hlen : s.loop.r.length = s.par.p := by rw [hr, fit_length]
  obtain ⟨b, hrel, hb⟩ := h.step_line (.rel hl hheld hidx hstart) rfl
  obtain ⟨c, hpush, hc⟩ := hb.step_line (.push rfl hfree hend hlen) rfl
  refine ⟨_, s.req.slotBytes s.par s.req.start, twoSteps_of_step hrel hpush, hc, rfl, rfl, rfl, rfl, rfl, rfl,
    contents_release hreq (hheldFilled hheld), ?stored, notEmpty_after_push hfree _, ?sent⟩
  case stored =>
    rw [respond, ← hr]
    exact contents_push_of_length hrsp hfree hlen
  case sent => simp [State.answered]

/-! ### From L7 to L0: the kick -/

theorem run_l7_l0 (h : s.Undisturbed) (hl : s.loop.label = .l7) (hne : s.rsp.isEmpty = false) :
    ∃ t, TwoSteps s t ∧ t.Undisturbed ∧ t.loop.label = .l0 ∧
      t.par = s.par ∧ t.tErr = s.tErr ∧ t.fErr = s.fErr ∧ t.req = s.req ∧ t.reqHeld = s.reqHeld ∧ t.busy = true ∧
      txPackets t.history ++ t.rsp.contents t.par = txPackets s.history ++ s.rsp.contents s.par ∧
      (s.busy = false → ∀ pkt q, s.rsp.contents s.par = pkt :: q →
        txPackets t.history = txPackets s.history ++ [pkt]) := by
  have ⟨⟨⟨_, hrsp, _⟩, _⟩, _⟩ := h
  have ⟨hstart, _⟩ := hrsp
  cases hbusy : s.busy with
  | true =>
    obtain ⟨b, hkick, hb⟩ := h.step_line (.kickBusy hl hbusy) rfl
    obtain ⟨c, hback, hc⟩ := hb.step_line (.restart rfl) rfl
    refine ⟨_, twoSteps_of_step hkick hback, hc, rfl, rfl, rfl, rfl, rfl, rfl, hbusy, ?moved, nofun⟩
    case moved => simp [State.answered, State.goto]
  | false =>
    obtain ⟨b, hkick, hb⟩ := h.step_line (.kickOk hl hbusy hne hstart) rfl
    obtain ⟨c, hback, hc⟩ := hb.step_line (.restart rfl) rfl
    have hcontents := contents_release hrsp hne
    refine ⟨_, twoSteps_of_step hkick hback, hc, rfl, rfl, rfl, rfl, rfl, rfl, rfl, ?moved, fun _ pkt q hq => ?sent⟩
    case moved => simp [State.answered, State.goto, hcontents]
    case sent =>
      obtain ⟨hpkt, -⟩ := List.cons.inj (hcontents.symm.trans hq)
      simp [State.answered, State.goto, hpkt]

/-- Settles O57: the parts of the run one after the other; an arbiter that was Idle found RSP empty, so what the kick sends
is the new response. -/
theorem commandLoopAnswersARequestInEightSteps : Obligations.CommandLoopAnswersARequestInEightSteps := by
  intro s hinv hl hawake hinbox hne hfree
  have ⟨_, _, _, hidle⟩ := hinv
  obtain ⟨w, hrunw, hw, hlw, hquietw⟩ := run_l1_l3 ⟨hinv, hawake, hinbox⟩ hl hne hfree
  obtain ⟨u, hrunu, hu, hlu, hquietu⟩ := run_l3_l5 hw hlw
  obtain ⟨upar, ureq, ursp, ubusy, utErr, ufErr, usent⟩ := hquietw.trans hquietu
  obtain ⟨v, q, hrunv, hv, hlv, vpar, vtErr, vfErr, vbusy, vheld, vreq, vrsp, vne, vsent⟩ := run_l5_l7 hu hlu
  obtain ⟨t, hrunt, ⟨-, tawake, -⟩, hlt, tpar, ttErr, tfErr, treq, theld, tbusy, tmoved, tsent⟩ := run_l7_l0 hv hlv vne
  rw [upar, ursp] at vrsp
  have hrun : Sys2Proof.core.run 8 s = .next t :=
    calc Sys2Proof.core.run 8 s = Sys2Proof.core.run 6 w := hrunw 6
      _ = Sys2Proof.core.run 4 u := hrunu 4
      _ = Sys2Proof.core.run 2 v := hrunv 2
      _ = .next t := hrunt 0
  refine ⟨t, q, t.req.contents t.par, hrun, ?req, rfl, theld.trans vheld, hlt, tawake, tbusy,
    ttErr.trans (vtErr.trans utErr), tfErr.trans (vfErr.trans ufErr), ?answered, fun hbusy => ?sent⟩
  case req => rw [← ureq, ← upar, vreq, treq, tpar]
  case answered => rw [tmoved, vsent, usent, vrsp, List.append_assoc]
  case sent =>
    have hempty : s.rsp.contents s.par = [] := contents_of_empty (hidle (by simp [hl]) hbusy)
    rw [hempty] at vrsp
    rw [tsent (by rw [vbusy, ubusy, hbusy]) _ _ vrsp, vsent, usent]

end Sys2Proof.Machine
end

section
/-! What waits while its port or its transmission is not ready, and what the wrong port gets (60_exceptions.md R191, R192,
R202 to R204). -/

namespace Sys2Proof.Machine

variable {s : State} {i : Instr} {r : Request} {x : Input} {waiting rest : List Input}

/-! ### A command that is not performed -/

theorem exec_waits (hport : s.bus.port = .f) (hasleep : s.fAsleep = true) : exec i s = .next s := by
  rw [exec_eq_perform]
  exact perform_waits (by rw [accepts_f hport, hasleep]; rfl)

/-- Settles O8: an accepted command fails the port check before its body runs, which takes ERR_PORT. -/
theorem wrongPortReturnsErrPort : Obligations.WrongPortReturnsErrPort := by
  intro i s hp ha
  rw [exec_eq_perform, perform_wrongPort ((accepts_iff s).2 ha) hp, takeError_eq _ _ _ ha]
  rfl

/-! ### Inputs that wait -/

/-- A suspended machine whose inputs all wait is quiescent and stays as it is (R208). -/
theorem step_all_wait (hasleep : s.fAsleep = true) (hwait : ∀ x ∈ s.inbox, enabledInput s.fAsleep s.busy x = false) :
    step s = .next s := by
  have hnone : nextMove s = none := by
    rw [nextMove, takeEnabled_none hwait]
    exact if_pos hasleep
  simp only [step, stepWith, hnone]

/-- A legal command that its port accepts is performed ahead of the inputs that wait before it, and they stay (R202). -/
theorem step_command_behind (hwait : ∀ x ∈ waiting, enabledInput s.fAsleep s.busy x = false)
    (hinbox : s.inbox = waiting ++ .command r :: rest) (ha : r.port = .f → s.fAsleep = false)
    (hwf : r.wf s.par = true) (hdecode : decode r.cmd = .legal i) :
    step s = exec i { s with inbox := waiting ++ rest, bus := r } := by
  have htake := takeEnabled_skip (rest := rest) hwait ((enabledInput_command _ s.busy r).2 ha) nofun
  have hnext : nextMove s = some (.command r, waiting ++ rest) := by simp only [nextMove, hinbox, htake]
  rw [step_of_nextMove hnext]
  simp only [moveWith, serve, serveBus, latch_of_wf hwf, hdecode]

/-- An F-side input waits while the F side is suspended (R202). -/
theorem enabledInput_foregroundSide (hasleep : s.fAsleep = true)
    (hx : x = .foreground ∨ ∃ r, x = .command r ∧ r.port = .f) : enabledInput s.fAsleep s.busy x = false := by
  rw [hasleep]
  obtain rfl | ⟨r, rfl, hport⟩ := hx
  · rfl
  · simp only [enabledInput, hport, Bool.not_true]

/-- A transmit-complete waits while nothing is outstanding (R203). -/
theorem enabledInput_transmitComplete (hidle : s.busy = false) (hx : x = .event .transmitComplete) :
    enabledInput s.fAsleep s.busy x = false := hx ▸ hidle

/-- Settles O11: F-side inputs are not enabled, so with nothing else there is no move, and a T-port command goes ahead. -/
theorem suspendedSideWaits : Obligations.SuspendedSideWaits := by
  refine ⟨fun i s hport hasleep => exec_waits hport hasleep, fun s hasleep hside => ?quiet,
    fun s waiting rest r i hasleep hside hinbox hport hwf hdecode => ?behind⟩
  case quiet => exact step_all_wait hasleep fun x hx => enabledInput_foregroundSide hasleep (hside x hx)
  case behind =>
    exact step_command_behind (fun x hx => enabledInput_foregroundSide hasleep (hside x hx)) hinbox (by simp [hport])
      hwf hdecode

/-! ### Transmit-completes -/

/-- While Sending, TXDONE's body is done: it goes Idle on an empty RSP and sends RSP's head otherwise (R143). -/
theorem exists_bodyDone_txdone (hbusy : s.busy = true) (hstart : s.rsp.start < s.par.n) :
    ∃ s' r, BodyDone .txdone s s' r := by
  cases hempty : s.rsp.isEmpty with
  | true => exact ⟨_, _, .txdoneIdle s hbusy hempty⟩
  | false => exact ⟨_, _, .txdoneOk s hbusy hempty hstart⟩

/-- While Sending, TXDONE is answered OK or IDLE and accounts for one transmission (R143, R203). -/
theorem exec_txdone_answers (hport : s.bus.port = .t) (hbusy : s.busy = true) (hstart : s.rsp.start < s.par.n) :
    ∃ t r, exec .txdone s = .next t ∧ t.result = some r ∧ (r.code = .ok ∨ r.code = .idle) ∧ t.tErr = s.tErr ∧
      txdonesAnswered t.history = txdonesAnswered s.history + 1 := by
  obtain ⟨s', r, hbody⟩ := exists_bodyDone_txdone hbusy hstart
  obtain ⟨-, htErr, -⟩ := bodyDone_frame hbody
  have hp : legalPort .txdone s.bus.port = true := by rw [hport]; rfl
  exact ⟨_, r, exec_done (by simp [hport]) hp hbody, rfl, by simpa using bodyDone_txdone_code hbody, htErr,
    txdonesAnswered_conclude hp hbody _⟩

/-- Settles O60: a transmit-complete is enabled exactly while `busy = 1`, and is then TXDONE on the T port. -/
theorem transmitCompleteOnlyWhileSending : Obligations.TransmitCompleteOnlyWhileSending := by
  refine ⟨fun s rest hmove => busy_of_transmitComplete hmove, fun s rest hmove hstart => ?answered,
    fun s hidle hasleep hevents => ?quiet, fun s waiting rest r i hidle hevents hinbox ha hwf hdecode => ?behind⟩
  case answered =>
    have hbusy := busy_of_transmitComplete hmove
    rw [step_of_nextMove hmove, moveWith, serve_eventRequest]
    exact exec_txdone_answers rfl hbusy hstart
  case quiet => exact step_all_wait hasleep fun x hx => enabledInput_transmitComplete hidle (hevents x hx)
  case behind =>
    exact step_command_behind (fun x hx => enabledInput_transmitComplete hidle (hevents x hx)) hinbox ha hwf hdecode

end Sys2Proof.Machine
end

section
/-! The reset step and the state after it, and a host that stays within the capacity (70_reset_and_hazards.md R220, R221,
R233). -/

namespace Sys2Proof.Machine

variable {s : State}

/-! ### Reset -/

/-- Settles O14: a reset is enabled in every state, so one that is next is the move, to the reset state. -/
theorem resetIsOneStep : Obligations.ResetIsOneStep :=
  fun _ _ hinbox => step_of_nextMove (nextMove_head hinbox rfl)

/-- A channel after reset holds nothing and is not full, whatever `N` (10_state.md R33). -/
theorem reset_fill_notFull (par : Params) : Channel.reset.fill par = 0 ∧ Channel.reset.isFull par = false := by
  have ⟨⟨hstart, hend, _⟩, _⟩ := good_resetWith par
  obtain ⟨-, -, -, hempty, -, hnotBoth⟩ := flagsFollowTheFillCount par Channel.reset hstart hend
  exact ⟨hempty.1 rfl, Bool.eq_false_iff.2 fun hfull => hnotBoth ⟨rfl, hfull⟩⟩

/-- After reset EMPTY is the one bit set in either status word (R221). -/
theorem status_resetWith (par : Params) (ch : Chan) : status (State.resetWith par) ch = 0x00000001#32 := by
  have hchan : (State.resetWith par).chan ch = Channel.reset := by cases ch <;> rfl
  have hheld : heldBit (State.resetWith par) ch = false := by cases ch <;> rfl
  obtain ⟨-, -, -, -, hbusy, -, htErr, hfErr, -⟩ := resetGivesEveryElementItsValue par
  obtain ⟨hfill, hfull⟩ := reset_fill_notFull par
  have hpar : (State.resetWith par).par = par := rfl
  simp only [status, hchan, hheld, hbusy, htErr, hfErr, hpar, hfill, hfull]
  decide

/-- Settles O13: both status words, and PEEK_REQ on the empty REQ of an F side that is awake. -/
theorem resetLeavesBothChannelsEmpty : Obligations.ResetLeavesBothChannelsEmpty :=
  fun par => ⟨status_resetWith par .req, status_resetWith par .rsp, fun _ hport =>
    ⟨_, exec_done_f hport rfl rfl (.peekEmpty _ rfl), rfl⟩⟩

/-! ### A host within the capacity -/

/-- Every request that REQ holds is stored and its response not yet transmitted (42_command_loop.md R167). -/
theorem txPackets_add_reqContents_length_le (hs : s.PairInv) :
    (txPackets s.history).length + (s.req.contents s.par).length ≤ (storedReq s.history).length := by
  obtain ⟨-, hle, hreq, hpaired, horder⟩ := hs
  have hreleased : (storedRsp s.history ++ s.pendingResponse).length = releasedReq s.history := by
    rw [hpaired, List.length_map, List.length_take_of_le hle]
  rw [horder, List.length_append, List.length_append] at hreleased
  rw [hreq, List.length_drop]
  omega

/-- A PUSH_REQ into a REQ that is not full stores the packet last (40_ring_channel.md R103). -/
theorem exec_pushReq_stores (hport : s.bus.port = .t) (hfree : s.req.isFull s.par = false)
    (hend : s.req.endIdx < s.par.n) :
    ∃ t, exec .pushReq s = .next t ∧ t.result = some { code := .ok } ∧
      storedReq t.history = storedReq s.history ++ [s.bus.pktIn] := by
  have hbody := BodyDone.pushReqOk s hfree hend
  have hp : legalPort .pushReq s.bus.port = true := by rw [hport]; rfl
  exact ⟨_, exec_done (by simp [hport]) hp hbody, rfl, storedReq_conclude hp hbody⟩

/-- Settles O55: REQ holds at most the requests without a transmitted response, so it is not full and its PUSH_REQ stores
the packet. -/
theorem hostWithinCapacityCausesNoOverrun : Obligations.HostWithinCapacityCausesNoOverrun := by
  intro s pkt rest hs hinbox hlen hcap
  have ⟨⟨⟨hreq, _⟩, _⟩, _⟩ := hs
  have ⟨_, hend, _⟩ := hreq
  have hheld := txPackets_add_reqContents_length_le hs
  have hfree : s.req.isFull s.par = false := Bool.eq_false_iff.2 fun hfull => by
    rw [isFull_iff_contents_length hreq] at hfull
    omega
  obtain ⟨hreceive, -⟩ := usbEventsAreTransportCommands s rest
  obtain ⟨b, hport, rfl, hstep⟩ := hreceive pkt hlen hinbox
  rw [hstep]
  exact exec_pushReq_stores (s := { s with inbox := rest, bus := b }) hport hfree hend

end Sys2Proof.Machine
end
